-- ==== Sys2Proof/Word.lean ====
section
/-! DEFINITION. The word types of the block: a byte of `SCRATCH` and of every byte sequence (spec 00_scope.md R12, R13), and the
5-bit op-select code of a host request (30_encoding.md R61). Every quantity that the spec calls a natural or an integer is a
`Nat` or an `Int`, and every quantity of ℚ is a `Rat` (00_scope.md R7: exact, no floating point). -/

namespace Sys2Proof

/-- A byte, `0 .. 255` (R12). -/
abbrev Byte := BitVec 8

/-- An op-select code, 5 bits (R61). -/
abbrev OpCode := BitVec 5

end Sys2Proof
end

