-- ==== Sys2Proof/Config.lean ====
section
/-! DEFINITION. What is fixed for the life of the block: the constants and parameters of 00_scope.md R4, and the free values of the
spec (93_implementation_defined.md, treatment "any value"). An OPEN parameter is an argument of the model: `Params` is a field of
State that no step writes, so a statement about every state is a statement about every instance of the block (log 6). -/

namespace Sys2Proof

/-- The identity string the spec gives the block (R1). -/
def identity : String := "tnc1101-rre-scf"

/-! ## Fixed constants of R4 -/

/-- `READ_MAX`: one non-blocking read delivers at most this many bytes. -/
def readMax : Nat := 14
/-- `STATUS_LEN`. -/
def statusLen : Nat := 12
/-- `ENV_HDR_LEN`. -/
def envHdrLen : Nat := 2
/-- `ENV_MAX_PAYLOAD`. -/
def envMaxPayload : Nat := 255
/-- `PARMS_LEN`. -/
def parmsLen : Nat := 18
/-- `FOURFSK_MAX_RATE`, symbols/s. -/
def fourFskMaxRate : Rat := 300000
/-- `RSSI_OFFSET`, dB. -/
def rssiOffset : Rat := 74

/-! ## The OPEN parameters of R4 -/

/-- The OPEN parameters of 00_scope.md R4, and the two parameter tables of 10_state.md R31 and R33. -/
structure Params where
  xtalDefault : Nat
  bwThreshold : List Rat
  cmdInit : Byte
  cmdStatusQuery : Byte
  cmdTxBlock : Byte
  syncMode : Nat
  initAttempts : Nat
  statusAttempts : Nat
  pollInterval : Rat
  scratchCapacity : Nat
  fsmNames : List String
deriving DecidableEq, Repr

/-- The constraints R4 puts on the parameters: the column "value or constraint" of its table; the table shape of 10_state.md R31
and R33. -/
structure Params.Valid (p : Params) : Prop where
  xtalDefault_pos : 0 < p.xtalDefault
  bwThreshold_length : p.bwThreshold.length = 16
  bwThreshold_decreasing : p.bwThreshold.Pairwise (fun a b => b < a)
  cmd_distinct : p.cmdInit ≠ p.cmdStatusQuery ∧ p.cmdInit ≠ p.cmdTxBlock ∧ p.cmdStatusQuery ≠ p.cmdTxBlock
  syncMode_width : p.syncMode < 8
  initAttempts_pos : 1 ≤ p.initAttempts
  statusAttempts_pos : 1 ≤ p.statusAttempts
  pollInterval_pos : 0 < p.pollInterval
  scratchCapacity_min : 20 ≤ p.scratchCapacity
  fsmNames_length : p.fsmNames.length = 23

/-- The transceiver's state names, entries 0 to 22 (46_status_decode.md R131).
PRESUMED by the spec: marked there as general knowledge, informative only (log 16). -/
def referenceFsmNames : List String :=
  ["SLEEP", "IDLE", "XOFF", "VCOON_MC", "REGON_MC", "MANCAL", "VCOON", "REGON", "STARTCAL", "BWBOOST", "FS_LOCK", "IFADCON",
   "ENDCAL", "RX", "RX_END", "RX_RST", "TXRX_SWITCH", "RXFIFO_OVERFLOW", "FSTXON", "TX", "TX_END", "RXTX_SWITCH",
   "TXFIFO_UNDERFLOW"]

/-- The reference bandwidth table of R4: `XTAL_DEFAULT / (8 × (4 + m) × 2^e)` at index `4e + m`, with `XTAL_DEFAULT` the 26 MHz of
the reference instantiation. PRESUMED by the spec: general knowledge, G1 of 93_implementation_defined.md (log 16). -/
def referenceBwThreshold : List Rat :=
  (List.range 16).map fun i => (26000000 : Rat) / ((8 * (4 + i % 4) * 2 ^ (i / 4) : Nat) : Rat)

/-- The reference instantiation of R4. `pollInterval` has no reference value in the spec: DESIGN CHOICE 1 (log 7). -/
def Params.reference : Params where
  xtalDefault := 26000000
  bwThreshold := referenceBwThreshold
  cmdInit := 0x01
  cmdStatusQuery := 0x02
  cmdTxBlock := 0x03
  syncMode := 0
  initAttempts := 3
  statusAttempts := 3
  pollInterval := 1
  scratchCapacity := 257
  fsmNames := referenceFsmNames

/-! ## The link's answers and the free values -/

/-- What the link has ready for a `read` (20_memory.md R47, R49; 30_encoding.md R84): a non-positive count `-k`, or a run of bytes
that one read delivers up to `READ_MAX` of, the rest staying in the stream (R58). `data []` counts 0. -/
inductive ReadAnswer where
  | noData (k : Nat)
  | data (bytes : List Byte)
deriving DecidableEq, Repr, Inhabited

/-- What a byte of `SCRATCH` that nothing has written since reset holds: a free draw (20_memory.md R39, U9; log 9). -/
opaque Config.scratchDraw : Nat → Byte

/-- The count a `write` returns when no script fixes it: a free draw, numbered by `State.draws` (60_exceptions.md R160, U12; log 10).
The operation bounds it by the length offered. -/
opaque Config.freeWrite : Nat → Int

/-- The answer of a `read` when no script fixes it: a free draw, numbered by `State.draws` (R160, U12; log 10). -/
opaque Config.freeRead : Nat → ReadAnswer

end Sys2Proof
end

