-- ==== Sys2Proof/Syntax.lean ====
section
/-! DEFINITION. The instructions: one constructor per row of spec/opcode_table.json (23 op-select operations of 30_encoding.md R62
and the three wire commands of R67), the records their arguments are made of (10_state.md R27, R28), and the two encoded forms an
instruction has: a host request `(op, args)` (R61) and a command envelope (R66). -/

namespace Sys2Proof

/-- `Scheme` of 00_scope.md R15. `FSK2` is the document's 2FSK, `FSK4` its 4FSK, and `none` its None, which is also the "none"
sentinel of MOD_DEC (41_modulation.md R90). -/
inductive Scheme where
  | fsk2 | fsk4 | ook | msk | gfsk | none
deriving DecidableEq, Repr

/-- `RadioRegisterParms` of 10_state.md R27, under the spec's field names. A field is a natural, so that a record with a field
outside its width can be written down, as a request that PARMS_SER refuses (44_config_encode.md R112). -/
structure RadioRegisterParms where
  freq : Nat
  ifw : Nat
  mod : Nat
  sync : Nat
  chanspc_m : Nat
  chanspc_e : Nat
  chanbw_m : Nat
  chanbw_e : Nat
  drate_m : Nat
  drate_e : Nat
  deviat_m : Nat
  deviat_e : Nat
  fecwhite : Nat
  pktlen : Nat
  pktmode : Nat
  preamble : Nat
deriving DecidableEq, Repr

/-- `RadioLinkConfig` of 10_state.md R28. The crystal frequency is no field of it (90_conflicts.md C10). -/
structure RadioLinkConfig where
  freqHz : Nat
  ifHz : Nat
  scheme : Scheme
  baseRate : Rat
  skew : Rat
  modIndex : Rat
  pktLen : Nat
  varLen : Bool
  fec : Bool
  whitening : Bool
  preambleSel : Nat
deriving DecidableEq, Repr

/-- One row of spec/opcode_table.json each, in the table's order. Argument names and types are 30_encoding.md R64's. A natural
that R64 bounds (`word`, `countdown`, `r`, `code`) is a `Nat`, since a value out of range is a request too, a refused one. -/
inductive Instr where
  | freqWord (freqHz : Nat)
  | ifWord (ifHz : Nat)
  | modEnc (scheme : Scheme)
  | modDec (word : Nat)
  | chanBw (reqBw : Rat)
  | drateDev (baseRate skew modIndex : Rat) (scheme : Scheme)
  | effRate (parms : RadioRegisterParms)
  | byteTime (parms : RadioRegisterParms)
  | encodeConfig (cfg : RadioLinkConfig)
  | parmsSer (parms : RadioRegisterParms)
  | parmsDes (s : List Byte)
  | envInit (parms : RadioRegisterParms)
  | envStatusQuery
  | envTxBlock (countdown : Nat) (block : List Byte)
  | envParse (s : List Byte)
  | statusDecode (p : List Byte)
  | rssiDbm (r : Nat)
  | fsmName (code : Nat)
  | readWithTimeout (maxAttempts : Nat)
  | sendInit (cfg : RadioLinkConfig)
  | queryStatus
  | sendBlock (countdown : Nat) (block : List Byte) (maxAttempts : Nat)
  | setXtal (hz : Nat)
  /-- The wire command INIT (R67): an envelope of type `CMD_INIT` with this payload. -/
  | cmdInit (payload : List Byte)
  /-- The wire command STATUS_QUERY (R67): an envelope of type `CMD_STATUS_QUERY` with this payload. -/
  | cmdStatusQuery (payload : List Byte)
  /-- The wire command TX_BLOCK (R67): an envelope of type `CMD_TX_BLOCK` with this payload. -/
  | cmdTxBlock (payload : List Byte)
deriving DecidableEq, Repr

/-- One argument of a request's tuple (R61, R64). -/
inductive Arg where
  | nat (n : Nat)
  | rat (q : Rat)
  | scheme (s : Scheme)
  | parms (p : RadioRegisterParms)
  | cfg (c : RadioLinkConfig)
  | bytes (l : List Byte)
deriving DecidableEq, Repr

/-- An instruction as it reaches the block: a host request `(op, args)` of R61, or the bytes of a command envelope of R66. -/
inductive Encoded where
  | request (op : OpCode) (args : List Arg)
  | envelope (bytes : List Byte)
deriving DecidableEq, Repr

end Sys2Proof
end

