-- ==== Sys2Proof/Machine/Operands.lean ====
section
/-! DEFINITION. The operand forms: the argument ranges of spec 30_encoding.md R64, whose violation is refused with `REF_ARG_RANGE`, the
argument tuple of each op-select code, and the tuple of zero arguments that stands for operand words of zeros. -/

namespace Sys2Proof.Machine

/-- Every field of `parms` is inside its width (10_state.md R27). -/
def parmsInWidth (p : RadioRegisterParms) : Bool :=
  p.freq < 2 ^ 24 && p.ifw < 2 ^ 5 && p.mod < 2 ^ 3 && p.sync < 2 ^ 3 && p.chanspc_m < 2 ^ 8 && p.chanspc_e < 2 ^ 2 &&
  p.chanbw_m < 2 ^ 2 && p.chanbw_e < 2 ^ 2 && p.drate_m < 2 ^ 8 && p.drate_e < 2 ^ 4 && p.deviat_m < 2 ^ 3 &&
  p.deviat_e < 2 ^ 3 && p.fecwhite < 2 ^ 8 && p.pktlen < 2 ^ 8 && p.pktmode < 2 ^ 1 && p.preamble < 2 ^ 3

/-- `word ∈ 0..7` (MOD_DEC). -/
def modWordInRange (word : Nat) : Bool := word ≤ 7

/-- A byte argument, `0..255` (`countdown`, `r`). -/
def byteInRange (n : Nat) : Bool := n ≤ 255

/-- `code ∈ 0..31` (FSM_NAME). -/
def fsmCodeInRange (code : Nat) : Bool := code ≤ 31

/-- `|s| = 18` (PARMS_DES). -/
def parmsBytesInRange (s : List Byte) : Bool := s.length == parmsLen

/-- `|p| = 12` (STATUS_DECODE). -/
def statusBytesInRange (p : List Byte) : Bool := p.length == statusLen

/-- `|block| > 253` makes the TX_BLOCK payload longer than 255 bytes (45_envelope.md R119). -/
def blockTooLong (block : List Byte) : Bool := block.length > 253

/-! ## Zero arguments -/

def zeroParms : RadioRegisterParms :=
  { freq := 0, ifw := 0, mod := 0, sync := 0, chanspc_m := 0, chanspc_e := 0, chanbw_m := 0, chanbw_e := 0, drate_m := 0,
    drate_e := 0, deviat_m := 0, deviat_e := 0, fecwhite := 0, pktlen := 0, pktmode := 0, preamble := 0 }

/-- All zeros; the scheme is the one whose word is 0 (30_encoding.md R82). -/
def zeroCfg : RadioLinkConfig :=
  { freqHz := 0, ifHz := 0, scheme := .fsk2, baseRate := 0, skew := 0, modIndex := 0, pktLen := 0, varLen := false, fec := false,
    whitening := false, preambleSel := 0 }

/-- The argument tuple of an op-select code (R64) with every value zero: a number 0, the scheme of word 0, a byte sequence of zeros of the
length R64 fixes, or empty where R64 fixes none. A reserved code has no arguments. -/
def zeroArgs (op : OpCode) : List Arg :=
  match op.toNat with
  | 0x01 | 0x02 | 0x04 | 0x11 | 0x12 | 0x13 | 0x17 => [.nat 0]
  | 0x03 => [.scheme .fsk2]
  | 0x05 => [.rat 0]
  | 0x06 => [.rat 0, .rat 0, .rat 0, .scheme .fsk2]
  | 0x07 | 0x08 | 0x0A | 0x0C => [.parms zeroParms]
  | 0x09 | 0x14 => [.cfg zeroCfg]
  | 0x0B => [.bytes (List.replicate parmsLen 0)]
  | 0x0E => [.nat 0, .bytes []]
  | 0x0F => [.bytes []]
  | 0x10 => [.bytes (List.replicate statusLen 0)]
  | 0x16 => [.nat 0, .bytes [], .nat 0]
  | _ => []

end Sys2Proof.Machine
end

