-- ==== Sys2Proof/WellFormed.lean ====
section
/-! DEFINITION. When an instruction is well formed: every argument is in the range spec 30_encoding.md R64 states for it, and a wire command's
payload fits its length byte (R66). An ill-formed request is a request all the same, one that its meaning refuses with `REF_ARG_RANGE`. -/

namespace Sys2Proof

open Machine in
/-- Every argument in its stated range (30_encoding.md R64, R66). -/
def Instr.wellFormed : Instr → Bool
  | .freqWord _ | .ifWord _ | .modEnc _ | .chanBw _ | .drateDev _ _ _ _ | .effRate _ | .byteTime _ | .encodeConfig _ => true
  | .modDec word => modWordInRange word
  | .parmsSer p | .envInit p => parmsInWidth p
  | .parmsDes s => parmsBytesInRange s
  | .envTxBlock countdown _ | .sendBlock countdown _ _ => byteInRange countdown
  | .statusDecode p => statusBytesInRange p
  | .rssiDbm r => byteInRange r
  | .fsmName code => fsmCodeInRange code
  | .envStatusQuery | .envParse _ | .readWithTimeout _ | .sendInit _ | .queryStatus | .setXtal _ => true
  | .cmdInit payload | .cmdStatusQuery payload | .cmdTxBlock payload => decide (payload.length ≤ envMaxPayload)

end Sys2Proof
end

