-- ==== Sys2Proof/Decode.lean ====
section
/-! DEFINITION. Decoding and encoding. A host request is a pair `(op, args)` (spec 30_encoding.md R61): its op-select code is matched exactly
(R62), a reserved code is rejected (R63), and a tuple that is not the code's own is rejected (R64). A command envelope is decoded from its
bytes (R66, R67, R69). Both decoders are total and reject by name. -/

namespace Sys2Proof

/-- Why an encoded form stands for no instruction. -/
inductive DecodeError where
  /-- An op-select code 0x00 or 0x18 to 0x1F (R63). -/
  | reservedOp
  /-- The arguments are not the tuple R64 gives for the code. -/
  | wrongArgs
  /-- Fewer than two bytes (45_envelope.md R120, SHORT). -/
  | envShort
  /-- The type byte is none of the three command codes (R120, UNKNOWN). -/
  | envUnknownType
  /-- Fewer payload bytes than the length byte says (R120, `complete = false`). -/
  | envIncomplete
deriving DecidableEq, Repr

/-- The request decoder: the op-select map of 30_encoding.md R62, with the argument tuples of R64. -/
def decodeRequest (op : OpCode) (args : List Arg) : Except DecodeError Instr :=
  match op.toNat with
  | 0x01 => match args with | [.nat freqHz] => .ok (.freqWord freqHz) | _ => .error .wrongArgs
  | 0x02 => match args with | [.nat ifHz] => .ok (.ifWord ifHz) | _ => .error .wrongArgs
  | 0x03 => match args with | [.scheme scheme] => .ok (.modEnc scheme) | _ => .error .wrongArgs
  | 0x04 => match args with | [.nat word] => .ok (.modDec word) | _ => .error .wrongArgs
  | 0x05 => match args with | [.rat reqBw] => .ok (.chanBw reqBw) | _ => .error .wrongArgs
  | 0x06 =>
    match args with
    | [.rat baseRate, .rat skew, .rat modIndex, .scheme scheme] => .ok (.drateDev baseRate skew modIndex scheme)
    | _ => .error .wrongArgs
  | 0x07 => match args with | [.parms parms] => .ok (.effRate parms) | _ => .error .wrongArgs
  | 0x08 => match args with | [.parms parms] => .ok (.byteTime parms) | _ => .error .wrongArgs
  | 0x09 => match args with | [.cfg cfg] => .ok (.encodeConfig cfg) | _ => .error .wrongArgs
  | 0x0A => match args with | [.parms parms] => .ok (.parmsSer parms) | _ => .error .wrongArgs
  | 0x0B => match args with | [.bytes s] => .ok (.parmsDes s) | _ => .error .wrongArgs
  | 0x0C => match args with | [.parms parms] => .ok (.envInit parms) | _ => .error .wrongArgs
  | 0x0D => match args with | [] => .ok .envStatusQuery | _ => .error .wrongArgs
  | 0x0E => match args with | [.nat countdown, .bytes block] => .ok (.envTxBlock countdown block) | _ => .error .wrongArgs
  | 0x0F => match args with | [.bytes s] => .ok (.envParse s) | _ => .error .wrongArgs
  | 0x10 => match args with | [.bytes p] => .ok (.statusDecode p) | _ => .error .wrongArgs
  | 0x11 => match args with | [.nat r] => .ok (.rssiDbm r) | _ => .error .wrongArgs
  | 0x12 => match args with | [.nat code] => .ok (.fsmName code) | _ => .error .wrongArgs
  | 0x13 => match args with | [.nat maxAttempts] => .ok (.readWithTimeout maxAttempts) | _ => .error .wrongArgs
  | 0x14 => match args with | [.cfg cfg] => .ok (.sendInit cfg) | _ => .error .wrongArgs
  | 0x15 => match args with | [] => .ok .queryStatus | _ => .error .wrongArgs
  | 0x16 =>
    match args with
    | [.nat countdown, .bytes block, .nat maxAttempts] => .ok (.sendBlock countdown block maxAttempts)
    | _ => .error .wrongArgs
  | 0x17 => match args with | [.nat hz] => .ok (.setXtal hz) | _ => .error .wrongArgs
  | _ => .error .reservedOp

/-- The envelope decoder: byte 0 selects the command by the parameters' codes (30_encoding.md R67), byte 1 is the payload length, and the
envelope is the `2 + len` bytes it announces (R69); bytes after it are no part of it (45_envelope.md R120). -/
def decodeEnvelope (p : Params) (bytes : List Byte) : Except DecodeError Instr :=
  match bytes with
  | type :: len :: rest =>
    if rest.length < len.toNat then .error .envIncomplete
    else if type = p.cmdInit then .ok (.cmdInit (rest.take len.toNat))
    else if type = p.cmdStatusQuery then .ok (.cmdStatusQuery (rest.take len.toNat))
    else if type = p.cmdTxBlock then .ok (.cmdTxBlock (rest.take len.toNat))
    else .error .envUnknownType
  | _ => .error .envShort

/-- The instruction an encoded form stands for, in a block with parameters `p`. -/
def decode (p : Params) : Encoded → Except DecodeError Instr
  | .request op args => decodeRequest op args
  | .envelope bytes => decodeEnvelope p bytes

/-- The instruction of a word of spec/opcode_table.json with operand words of zeros: the op-select code is the low 5 bits (R62, mask 0x1F),
the arguments are all zero. The table's three ENVELOPE rows have the words 0x01, 0x02, 0x03 of the same width as the op-select words of
FREQ_WORD, IF_WORD and MOD_ENC: a number alone cannot tell them apart, and it is read as an op-select word (log 4). -/
def decodeTableWord (nbits w : Nat) : Option Instr :=
  if nbits < 5 then none
  else
    match decodeRequest (BitVec.ofNat 5 w) (Machine.zeroArgs (BitVec.ofNat 5 w)) with
    | .ok i => some i
    | .error _ => none

/-- The wire form `[type, len] ++ payload` (30_encoding.md R66). -/
def encodeEnvelope (type : Byte) (payload : List Byte) : List Byte := type :: BitVec.ofNat 8 payload.length :: payload

/-- The encoder: op-select code and argument tuple (30_encoding.md R62, R64), or the envelope's bytes (R66, R67). -/
def encode (p : Params) : Instr → Encoded
  | .freqWord freqHz => .request 0x01 [.nat freqHz]
  | .ifWord ifHz => .request 0x02 [.nat ifHz]
  | .modEnc scheme => .request 0x03 [.scheme scheme]
  | .modDec word => .request 0x04 [.nat word]
  | .chanBw reqBw => .request 0x05 [.rat reqBw]
  | .drateDev baseRate skew modIndex scheme => .request 0x06 [.rat baseRate, .rat skew, .rat modIndex, .scheme scheme]
  | .effRate parms => .request 0x07 [.parms parms]
  | .byteTime parms => .request 0x08 [.parms parms]
  | .encodeConfig cfg => .request 0x09 [.cfg cfg]
  | .parmsSer parms => .request 0x0A [.parms parms]
  | .parmsDes s => .request 0x0B [.bytes s]
  | .envInit parms => .request 0x0C [.parms parms]
  | .envStatusQuery => .request 0x0D []
  | .envTxBlock countdown block => .request 0x0E [.nat countdown, .bytes block]
  | .envParse s => .request 0x0F [.bytes s]
  | .statusDecode p => .request 0x10 [.bytes p]
  | .rssiDbm r => .request 0x11 [.nat r]
  | .fsmName code => .request 0x12 [.nat code]
  | .readWithTimeout maxAttempts => .request 0x13 [.nat maxAttempts]
  | .sendInit cfg => .request 0x14 [.cfg cfg]
  | .queryStatus => .request 0x15 []
  | .sendBlock countdown block maxAttempts => .request 0x16 [.nat countdown, .bytes block, .nat maxAttempts]
  | .setXtal hz => .request 0x17 [.nat hz]
  | .cmdInit payload => .envelope (encodeEnvelope p.cmdInit payload)
  | .cmdStatusQuery payload => .envelope (encodeEnvelope p.cmdStatusQuery payload)
  | .cmdTxBlock payload => .envelope (encodeEnvelope p.cmdTxBlock payload)

end Sys2Proof
end

