-- ==== Sys2Proof/Machine/Arith.lean ====
section
/-! DEFINITION. The number primitives of spec 00_scope.md R8 to R12: floor, round, flog2, mask, bit fields, two's complement, and the
big-endian order of 20_memory.md R41. All exact over ℚ (R7). -/

namespace Sys2Proof.Machine

/-- `2^k` in ℚ for any integer `k`. -/
def pow2 : Int → Rat
  | .ofNat k => ((2 ^ k : Nat) : Rat)
  | .negSucc k => 1 / ((2 ^ (k + 1) : Nat) : Rat)

/-- `floor(x)` (R8). -/
def floorQ (x : Rat) : Int := x.floor

/-- `round(x)` (R9): to the nearest integer, a tie away from zero. -/
def roundQ (x : Rat) : Int :=
  if 0 ≤ x then floorQ (x + 1 / 2) else -floorQ (-x + 1 / 2)

/-- `flog2(x)` (R10) for `x > 0`: the `k` with `2^k ≤ x < 2^(k+1)`. With `x = n / d` in lowest terms `k` is `log2 n - log2 d` or one less.
Every caller refuses `x ≤ 0` first (60_exceptions.md R153). -/
def flog2 (x : Rat) : Int :=
  let e : Int := (Nat.log2 x.num.natAbs : Int) - (Nat.log2 x.den : Int)
  if pow2 e ≤ x then e else e - 1

/-- `mask_w(v)` (R11): `v mod 2^w`, in `0 .. 2^w - 1` for a negative `v` too. -/
def mask (w : Nat) (v : Int) : Nat := (v % ((2 ^ w : Nat) : Int)).toNat

/-- `v[hi:lo]` (R12). -/
def bitField (v hi lo : Nat) : Nat := v / 2 ^ lo % 2 ^ (hi - lo + 1)

/-- `v[i]` (R12), as a boolean. -/
def bitAt (v i : Nat) : Bool := v / 2 ^ i % 2 == 1

/-- `sext_8(b)` (R12). -/
def sext8 (b : Byte) : Int := if b.toNat < 128 then (b.toNat : Int) else (b.toNat : Int) - 256

/-- `[b]`: 1 if `b` else 0 (44_config_encode.md R109). -/
def flagBit (b : Bool) : Nat := if b then 1 else 0

/-- A natural as a byte, for values already below 256. -/
def toByte (n : Nat) : Byte := BitVec.ofNat 8 n

/-- The three big-endian bytes of a 24-bit word (20_memory.md R41; 30_encoding.md R71, offsets 0 to 2). -/
def bytesBE24 (v : Nat) : List Byte := [toByte (bitField v 23 16), toByte (bitField v 15 8), toByte (bitField v 7 0)]

/-- The 24-bit word of three big-endian bytes (44_config_encode.md R113). -/
def wordBE24 (a b c : Byte) : Nat := a.toNat * 2 ^ 16 + b.toNat * 2 ^ 8 + c.toNat

/-- The 16-bit word of two big-endian bytes (20_memory.md R41, the WOR timer). -/
def wordBE16 (a b : Byte) : Nat := a.toNat * 256 + b.toNat

end Sys2Proof.Machine
end

