-- ==== Sys2Proof/Machine/State.lean ====
section
/-! DEFINITION. The state of the machine: everything 10_state.md R16 gives the block, the parameters of 00_scope.md R4, and the host's
and the link's side of the interface as plain data (60_exceptions.md R160, 70_reset_and_hazards.md R180). Also the records and results
that 30_encoding.md R65 names, the reasons a step can stop, and the state after reset (70_reset_and_hazards.md R167). -/

namespace Sys2Proof.Machine

/-! ## The block's registers -/

/-- `SEQ` (10_state.md R19). -/
inductive Seq where
  | idle | polling
deriving DecidableEq, Repr

/-- `PENDING` (10_state.md R23): the transaction in flight. `w` is the byte count its write returned and `len` the length `L` of the
envelope it offered (47_transactions.md R137). READ_WITH_TIMEOUT makes no write (R143). -/
inductive Pending where
  | readWithTimeout
  | sendInit (w : Int) (len : Nat)
  | queryStatus (w : Int) (len : Nat)
  | sendBlock (w : Int) (len : Nat)
deriving DecidableEq, Repr

/-- A notice of `DIAG` (10_state.md R24). The one kind is `NOTICE_4FSK_CLAMP`, with the rate before clamping (60_exceptions.md R155). -/
inductive Notice where
  | fourFskClamp (r0 : Rat)
deriving DecidableEq, Repr

/-- The reasons of `raise Refuse(reason)`, in the priority order of 60_exceptions.md R156; the list of R154 is complete. These label an
ANSWER of the block, after which it goes on (R152): they are no `Refusal` of the model. -/
inductive RefReason where
  | busy | reservedOp | argRange | blockTooLong | envOverCapacity | attemptsZero | xtalZero | rateNonpos | devNonpos
deriving DecidableEq, Repr

/-! ## Results (30_encoding.md R65) -/

/-- `DrdResult` of 10_state.md R29. -/
structure DrdResult where
  rate : Rat
  dev : Rat
  reqBw : Rat
  clamped : Bool
  chanbw_e : Nat
  chanbw_m : Nat
  drate_e : Nat
  drate_m : Nat
  deviat_e : Nat
  deviat_m : Nat
deriving DecidableEq, Repr

/-- `StatusRecord` of 10_state.md R30. -/
structure StatusRecord where
  partNum : Byte
  version : Byte
  freqOffRaw : Byte
  freqOff : Int
  crcOk : Bool
  lqi : Nat
  rssiRaw : Byte
  rssiDbm : Rat
  fsmState : Nat
  worTimer : Nat
  flagsRaw : Byte
  cs : Bool
  pqt : Bool
  cca : Bool
  sfd : Bool
  gdo2 : Bool
  gdo0 : Bool
  vcoDac : Byte
  txUnderflow : Bool
  txCount : Nat
  rxOverflow : Bool
  rxCount : Nat
deriving DecidableEq, Repr

/-- `kind` of a parsed envelope (45_envelope.md R120). -/
inductive EnvKind where
  | init | statusQuery | txBlock | unknown | short
deriving DecidableEq, Repr

/-- `ParseResult` of 45_envelope.md R120. `type` and `len` are `none` only for `SHORT`. -/
structure ParseResult where
  kind : EnvKind
  type : Option Byte
  len : Option Nat
  payload : List Byte
  complete : Bool
  trailing : Nat
deriving DecidableEq, Repr

/-- The split of a TX_BLOCK payload (45_envelope.md R120, last paragraph; 30_encoding.md R72). -/
structure TxBlockBody where
  blockSize : Byte
  blockCountdown : Byte
  blockBytes : List Byte
deriving DecidableEq, Repr

/-- What the receiving side reads in the payload of a wire command: the parms of an INIT payload of 18 bytes (44_config_encode.md R113),
nothing for STATUS_QUERY, the split of a TX_BLOCK payload of 2 bytes or more (45_envelope.md R120). -/
inductive CommandBody where
  | init (parms : Option RadioRegisterParms)
  | statusQuery
  | txBlock (body : Option TxBlockBody)
deriving DecidableEq, Repr

/-- The result of an operation (30_encoding.md R65). -/
inductive Result where
  /-- FREQ_WORD, IF_WORD, MOD_ENC. -/
  | word (n : Nat)
  /-- MOD_DEC. -/
  | scheme (s : Scheme)
  /-- CHAN_BW: the pair `(e, m)`. -/
  | chanBw (e m : Nat)
  /-- DRATE_DEV. -/
  | drd (d : DrdResult)
  /-- EFF_RATE, BYTE_TIME, RSSI_DBM. -/
  | rational (q : Rat)
  /-- ENCODE_CONFIG, PARMS_DES. -/
  | parms (p : RadioRegisterParms)
  /-- PARMS_SER, ENV_INIT, ENV_STATUS_QUERY, ENV_TX_BLOCK. -/
  | bytes (l : List Byte)
  /-- ENV_PARSE. -/
  | parsed (r : ParseResult)
  /-- STATUS_DECODE. -/
  | status (st : StatusRecord)
  /-- FSM_NAME. -/
  | text (name : String)
  /-- READ_WITH_TIMEOUT, SEND_INIT, SEND_BLOCK. -/
  | count (n : Int)
  /-- QUERY_STATUS, `OK(st)`. -/
  | ok (st : StatusRecord)
  /-- QUERY_STATUS, `FAIL(n)`. -/
  | fail (n : Int)
  /-- SET_XTAL. -/
  | ack
  /-- The decode of a wire command (CMD.INIT, CMD.STATUS_QUERY, CMD.TX_BLOCK; log 5). -/
  | command (r : ParseResult) (body : CommandBody)
deriving DecidableEq, Repr

/-- How a request ends (60_exceptions.md R149): a result or `REFUSED(reason)`. -/
inductive Answer where
  | result (v : Result)
  | refused (reason : RefReason)
deriving DecidableEq, Repr

/-! ## The interface's sequences -/

/-- What passes between host and block, in order (70_reset_and_hazards.md R180). -/
inductive HostEvent where
  | request (e : Encoded)
  | answer (a : Answer)
deriving DecidableEq, Repr

/-- A link call with its answer (R180): `write` with the bytes offered and the count returned, `read` with the maximum, the count
returned and the bytes delivered. -/
inductive LinkCall where
  | write (offered : List Byte) (w : Int)
  | read (max : Nat) (r : Int) (delivered : List Byte)
deriving DecidableEq, Repr

/-- A request the host has issued. `early` marks one that the host issues without waiting for the request in flight, which R172 tells it
not to do (log 1). -/
structure Arrival where
  early : Bool
  body : Encoded
deriving DecidableEq, Repr

/-! ## The state -/

/-- The state of the machine. The first eight fields and `params` are the spec's (10_state.md R16, 00_scope.md R4), the rest is the
host's and the link's side of the interface. -/
structure State where
  /-- `XTAL`, Hz (R20). -/
  xtal : Nat
  /-- `SEQ` (R19). -/
  seq : Seq
  /-- `ATTEMPTS_LEFT` (R22). Unspecified while `IDLE`: DESIGN CHOICE, it keeps its last value there (log 8). -/
  attemptsLeft : Nat
  /-- `LAST_COUNT` (R22). Unspecified while `IDLE`: DESIGN CHOICE, it keeps its last value there (log 8). -/
  lastCount : Int
  /-- `PENDING` (R23). -/
  pending : Option Pending
  /-- `SCRATCH` (R21): the bytes written since reset, addresses strictly rising; `Memory.wf` is its canonical form (log 9). -/
  scratch : List Host.Cell
  /-- `DIAG` (R24), oldest first. -/
  diag : List Notice
  /-- `REFUSED` (R25), the model's mark. -/
  refused : Bool
  /-- The parameters and constant tables (00_scope.md R4; 10_state.md R31, R33). -/
  params : Params
  /-- The requests issued and not yet taken, oldest first. -/
  inbox : List Arrival
  /-- The requests taken and the answers given, oldest first. -/
  hostLog : List HostEvent
  /-- The counts the next `write`s return, while it lasts. -/
  writeScript : List Int
  /-- The answers of the next `read`s, while it lasts; the bytes left in the stream stand in it (20_memory.md R58). -/
  readScript : List ReadAnswer
  /-- The link calls made, oldest first. -/
  linkLog : List LinkCall
  /-- The number of free draws of the link so far. -/
  draws : Nat
  /-- The number of `POLL_INTERVAL`s waited so far (60_exceptions.md R163). -/
  sleeps : Nat
deriving DecidableEq, Repr

/-- Why a step can stop with a fault. The block itself has no fault state (60_exceptions.md R151). -/
inductive Fault where
  /-- An access to `SCRATCH` that runs past `SCRATCH_CAPACITY`, an address that does not exist (20_memory.md R37). Raised by `memWrite` and
  `memRead`, in a state whose capacity is below the 20 bytes 00_scope.md R4 asks for; safe: no state with valid parameters reaches it. -/
  | scratchRange
deriving DecidableEq, Repr

/-- Why the model can have no meaning for an instruction. -/
inductive Refusal where
  /-- No meaning for this instruction yet. Raised by an arm of exec only; safe. No arm of this model raises it. -/
  | notModelled (mnemonic : String)
deriving DecidableEq, Repr

/-- The state after reset of the block with parameters `p` (70_reset_and_hazards.md R167, R168). `attemptsLeft` and `lastCount` are
unspecified there: DESIGN CHOICE 0 (log 8). The interface's fields are empty (log 1, log 2, log 10). -/
def State.resetWith (p : Params) : State where
  xtal := p.xtalDefault
  seq := .idle
  attemptsLeft := 0
  lastCount := 0
  pending := none
  scratch := []
  diag := []
  refused := false
  params := p
  inbox := []
  hostLog := []
  writeScript := []
  readScript := []
  linkLog := []
  draws := 0
  sleeps := 0

/-- The state after reset of the reference instantiation (00_scope.md R4; log 6). -/
def State.reset : State := State.resetWith Params.reference

end Sys2Proof.Machine
end

