-- ==== Sys2Proof/Machine/Ops.lean ====
section
/-! DEFINITION. The named operations over the state: `SCRATCH` (spec 20_memory.md R46), the byte stream (R50, R51), notices, answers and
refusals (60_exceptions.md R149, R152, R156), and the start of a transaction (47_transactions.md R143).

The block takes no exception and returns from none (60_exceptions.md R157, R159). What it does instead of an exception is a refusal, ONE shared
operation, `refuse`: no state saved, nothing changed but the mark `REFUSED`. -/

namespace Sys2Proof.Machine

/-! ## The scratch buffer as data -/

abbrev Memory := List Host.Cell

/-- Canonical form: addresses strictly rising. An address that is not listed has not been written since reset and reads as no value, so no
listed byte can equal what an unlisted address reads as. -/
def Memory.wf : Memory → Bool
  | [] => true
  | [_] => true
  | c :: d :: m => c.1 < d.1 && Memory.wf (d :: m)

/-- What has been written to address `a` since reset, if anything. -/
def Memory.lookup : Memory → Nat → Option Byte
  | [], _ => none
  | c :: m, a => if c.1 = a then some c.2 else Memory.lookup m a

/-- Write one byte, keeping the canonical form. -/
def Memory.write : Memory → Nat → Byte → Memory
  | [], a, b => [(a, b)]
  | c :: m, a, b =>
    if a < c.1 then (a, b) :: c :: m
    else if a = c.1 then (a, b) :: m
    else c :: Memory.write m a b

/-- Write the bytes of `v` from address `a` on. -/
def Memory.writeRun (m : Memory) (a : Nat) : List Byte → Memory
  | [] => m
  | b :: v => Memory.writeRun (Memory.write m a b) (a + 1) v

/-- The byte at address `a`: what was last written there, or the reset draw (20_memory.md R39, R52; log 9). -/
def Memory.byteAt (m : Memory) (a : Nat) : Byte := (Memory.lookup m a).getD (Config.scratchDraw a)

/-- The bytes at `a .. a + n - 1`. -/
def Memory.readRun (m : Memory) (a : Nat) : Nat → List Byte
  | 0 => []
  | n + 1 => Memory.byteAt m a :: Memory.readRun m (a + 1) n

/-- The run `a .. a + n - 1` lies inside the buffer (20_memory.md R37). -/
def runInScratch (s : State) (a n : Nat) : Bool := a + n ≤ s.params.scratchCapacity

/-- `MemRead(addr, n)` (20_memory.md R46); nothing for a run that leaves the buffer. -/
def memRead (a n : Nat) (s : State) : Option (List Byte) :=
  if runInScratch s a n then some (Memory.readRun s.scratch a n) else none

/-- `MemWrite(addr, |v|, v)` (20_memory.md R46); nothing for a run that leaves the buffer. -/
def memWrite (a : Nat) (v : List Byte) (s : State) : Option State :=
  if runInScratch s a v.length then some { s with scratch := Memory.writeRun s.scratch a v } else none

/-! ## The byte stream -/

/-- The count `write` returns: the script's next, or a free draw; at most the length offered (20_memory.md R48, R50). -/
def nextWriteCount (n : Nat) (s : State) : Int :=
  match s.writeScript with
  | w :: _ => min w (n : Int)
  | [] => min (Config.freeWrite s.draws) (n : Int)

/-- `StreamWrite(n)` (20_memory.md R50): offer the `n` bytes `bytes` of `SCRATCH[0 .. n-1]`; `SCRATCH` is unchanged. -/
def streamWrite (bytes : List Byte) (s : State) : Int × State :=
  let w := nextWriteCount bytes.length s
  (w, { s with
        writeScript := s.writeScript.tail
        draws := if s.writeScript.isEmpty then s.draws + 1 else s.draws
        linkLog := s.linkLog ++ [.write bytes w] })

/-- The answer `read` gives next: the script's next, or a free draw. -/
def nextReadAnswer (s : State) : ReadAnswer :=
  match s.readScript with
  | a :: _ => a
  | [] => Config.freeRead s.draws

/-- The bytes a read of up to `max` delivers of an answer (20_memory.md R49). -/
def ReadAnswer.delivered (max : Nat) : ReadAnswer → List Byte
  | .noData _ => []
  | .data bytes => bytes.take max

/-- The count `read` returns: how many bytes it delivers when that is positive, else a non-positive count (R47, R49). -/
def ReadAnswer.count (max : Nat) : ReadAnswer → Int
  | .noData k => -(k : Int)
  | .data bytes => ((bytes.take max).length : Int)

/-- What an answer leaves in the stream for later reads (R49, R58). -/
def ReadAnswer.leftover (max : Nat) : ReadAnswer → List ReadAnswer
  | .noData _ => []
  | .data bytes => if bytes.drop max = [] then [] else [.data (bytes.drop max)]

/-- The link's side of one `read` of up to `max` bytes: the answer is used up, its leftover stays, the call is logged. -/
def readCall (max : Nat) (s : State) : State :=
  let ans := nextReadAnswer s
  { s with
    readScript := ReadAnswer.leftover max ans ++ s.readScript.tail
    draws := if s.readScript.isEmpty then s.draws + 1 else s.draws
    linkLog := s.linkLog ++ [.read max (ReadAnswer.count max ans) (ReadAnswer.delivered max ans)] }

/-- `StreamRead(max)` (20_memory.md R51): one non-blocking read; the delivered bytes, if any, land at `SCRATCH[0 ..]` (R45). -/
def streamRead (max : Nat) (s : State) : Option (Int × State) :=
  let ans := nextReadAnswer s
  let n := ReadAnswer.count max ans
  if 0 < n then (memWrite 0 (ReadAnswer.delivered max ans) (readCall max s)).map fun t => (n, t)
  else some (n, readCall max s)

/-- `Sleep()` (60_exceptions.md R163): it changes no state of the block; the model counts the interval. -/
def sleep (s : State) : State := { s with sleeps := s.sleeps + 1 }

/-! ## Answers, notices, refusals -/

/-- `result <- v` (60_exceptions.md R149). -/
def respond (v : Result) (s : State) : State := { s with hostLog := s.hostLog ++ [.answer (.result v)] }

/-- `emit Notice` for a list of notices (10_state.md R24). -/
def emit (notices : List Notice) (s : State) : State := { s with diag := s.diag ++ notices }

/-- `raise Refuse(reason)` (60_exceptions.md R152): the response is `REFUSED(reason)` and the one state change is `REFUSED <- true`. -/
def refuse (reason : RefReason) (s : State) : State :=
  { s with refused := true, hostLog := s.hostLog ++ [.answer (.refused reason)] }

/-- The first reason of the list whose condition holds. -/
def firstReason : List (Bool × RefReason) → Option RefReason
  | [] => none
  | c :: l => if c.1 then some c.2 else firstReason l

/-- A request with the refusal conditions `reasons`, listed in the priority order of 60_exceptions.md R156, which `REF_BUSY` heads for every
operation (10_state.md R23): the first condition that holds refuses it, before any effect; else the request does `effect`. -/
def unlessRefused (reasons : List (Bool × RefReason)) (s : State) (effect : Host.Outcome State Fault Refusal) :
    Host.Outcome State Fault Refusal :=
  match firstReason ((s.pending.isSome, .busy) :: reasons) with
  | some reason => .next (refuse reason s)
  | none => effect

/-! ## Starting a transaction (47_transactions.md R143 (1)) -/

/-- Set `PENDING`, `SEQ <- POLLING` and `ATTEMPTS_LEFT` to the budget. -/
def beginPoll (p : Pending) (budget : Nat) (s : State) : State :=
  { s with seq := .polling, attemptsLeft := budget, pending := some p }

/-- The request step of a transaction from its envelope on (45_envelope.md R124): `MemWrite(0, L, env)`, `StreamWrite(L)`, then the poll
begins with `PENDING` holding the write's count and `L`. -/
def beginTransaction (mk : Int → Nat → Pending) (env : List Byte) (budget : Nat) (s : State) : Host.Outcome State Fault Refusal :=
  match memWrite 0 env s with
  | none => .fault .scratchRange
  | some s1 =>
    match memRead 0 env.length s1 with
    | none => .fault .scratchRange
    | some bytes => .next (beginPoll (mk (streamWrite bytes s1).1 env.length) budget (streamWrite bytes s1).2)

/-- An envelope of length `len` does not fit the buffer (20_memory.md R44, 45_envelope.md R124). -/
def overCapacity (len : Nat) (s : State) : Bool := s.params.scratchCapacity < len

end Sys2Proof.Machine
end

