-- ==== Sys2Proof/Machine/Frequency.lean ====
section
/-! DEFINITION. FREQ_WORD and IF_WORD (spec 40_frequency.md). Both read `XTAL` and write no state of the block. -/

namespace Sys2Proof.Machine

/-- R85: `mask_24(floor(freqHz × 2^16 / XTAL))`. The floor of a quotient of naturals is natural division. -/
def freqWord (xtal freqHz : Nat) : Nat := mask 24 ((freqHz * 2 ^ 16 / xtal : Nat) : Int)

/-- R87: `floor(ifHz × 2^10 / XTAL) mod 32`. -/
def ifWord (xtal ifHz : Nat) : Nat := mask 5 ((ifHz * 2 ^ 10 / xtal : Nat) : Int)

/-- FREQ_WORD (R85). -/
def execFreqWord (freqHz : Nat) (s : State) : Host.Outcome State Fault Refusal :=
  unlessRefused [] s (.next (respond (.word (freqWord s.xtal freqHz)) s))

/-- IF_WORD (R87). -/
def execIfWord (ifHz : Nat) (s : State) : Host.Outcome State Fault Refusal :=
  unlessRefused [] s (.next (respond (.word (ifWord s.xtal ifHz)) s))

end Sys2Proof.Machine
end

