-- ==== Sys2Proof/Machine/Bandwidth.lean ====
section
/-! DEFINITION. CHAN_BW (spec 42_bandwidth.md): the search of `BW_THRESHOLD` (10_state.md R31). -/

namespace Sys2Proof.Machine

/-- The index the search of R93 stops at: the first whose threshold is strictly less than `reqBw`, and 15 when there is none. Index order
`4e + m` is the scan order, exponent outer and mantissa inner. -/
def bwIndex (table : List Rat) (reqBw : Rat) : Nat :=
  match table.findIdx? (fun t => t < reqBw) with
  | some i => i
  | none => 15

/-- The exponent and the mantissa at an index (R94: the ordinal of `(e, m)` is `4e + m`). -/
def bwPair (i : Nat) : Nat × Nat := (i / 4, i % 4)

/-- The ordinal of a CHAN_BW result (R94). -/
def bwOrdinal (em : Nat × Nat) : Nat := 4 * em.1 + em.2

/-- R93: the pair `(e, m)`. -/
def chanBw (table : List Rat) (reqBw : Rat) : Nat × Nat := bwPair (bwIndex table reqBw)

/-- CHAN_BW (R93). -/
def execChanBw (reqBw : Rat) (s : State) : Host.Outcome State Fault Refusal :=
  unlessRefused [] s
    (.next (respond (.chanBw (chanBw s.params.bwThreshold reqBw).1 (chanBw s.params.bwThreshold reqBw).2) s))

end Sys2Proof.Machine
end

