-- ==== Sys2Proof/Machine/Flags.lean ====
section
/-! DEFINITION. The block has no flags and no condition codes (spec 10_state.md R26). Its status indications are these: the sign of a
transport result, the `OK`/`FAIL` tag of QUERY_STATUS, the `clamped` field and the notices (R26 (a) to (d)). -/

namespace Sys2Proof.Machine

/-- R26 (a): a positive transport result is success (60_exceptions.md R150). -/
def isSuccess (n : Int) : Bool := 0 < n

/-- The result of SEND_INIT and SEND_BLOCK from the write's count `w`, the envelope length `len` and the poll's count `n`: a short write
is a failure whatever the poll returned (47_transactions.md R137, R138, R144). -/
def transportCount (w : Int) (len : Nat) (n : Int) : Int := if w = (len : Int) then n else min w 0

/-- R26 (b): the tag of QUERY_STATUS, with the record `st` the reply would decode to (47_transactions.md R140, R141). -/
def statusTag (w : Int) (len : Nat) (n : Int) (st : StatusRecord) : Result :=
  if w ≠ (len : Int) then .fail (min w 0) else if n < (statusLen : Int) then .fail n else .ok st

/-- R26 (c): a 4FSK rate above the maximum is clamped; strictly above (43_rate_deviation.md R97, R98). -/
def clampApplies (scheme : Scheme) (r0 : Rat) : Bool := scheme = .fsk4 && fourFskMaxRate < r0

/-- R26 (d): the notices of a DRATE_DEV that is not refused (43_rate_deviation.md R97, R98; 60_exceptions.md R155). -/
def clampNotices (scheme : Scheme) (r0 : Rat) : List Notice := if clampApplies scheme r0 then [.fourFskClamp r0] else []

end Sys2Proof.Machine
end

