-- ==== Sys2Proof/Machine/Modulation.lean ====
section
/-! DEFINITION. MOD_ENC and MOD_DEC (spec 41_modulation.md) over the one table `MODTABLE` (10_state.md R32). The asymmetry on NONE is
normative (R92): an unrecognized scheme encodes to the word of 2FSK, silently, and an unmapped word decodes to the sentinel NONE. -/

namespace Sys2Proof.Machine

/-- `MODTABLE` (10_state.md R32, 30_encoding.md R82). -/
def modTable : List (Scheme × Nat) := [(.fsk2, 0), (.gfsk, 1), (.ook, 3), (.fsk4, 4), (.msk, 7)]

/-- R89: the scheme's word, 0 for a scheme that is not in the table. -/
def modEnc (scheme : Scheme) : Nat :=
  match modTable.find? (fun row => row.1 = scheme) with
  | some row => row.2
  | none => 0

/-- R90: the word's scheme, NONE for a word that is not in the table. -/
def modDec (word : Nat) : Scheme :=
  match modTable.find? (fun row => row.2 = word) with
  | some row => row.1
  | none => .none

/-- MOD_ENC (R89). -/
def execModEnc (scheme : Scheme) (s : State) : Host.Outcome State Fault Refusal :=
  unlessRefused [] s (.next (respond (.word (modEnc scheme)) s))

/-- MOD_DEC (R90). -/
def execModDec (word : Nat) (s : State) : Host.Outcome State Fault Refusal :=
  unlessRefused [(!modWordInRange word, .argRange)] s (.next (respond (.scheme (modDec word)) s))

end Sys2Proof.Machine
end

