-- ==== Sys2Proof/Machine/RateDeviation.lean ====
section
/-! DEFINITION. DRATE_DEV, EFF_RATE and BYTE_TIME (spec 43_rate_deviation.md), exact over ℚ (00_scope.md R7). -/

namespace Sys2Proof.Machine

/-! ## DRATE_DEV (R97) -/

/-- The clamped rate (R97, R98). -/
def clampedRate (scheme : Scheme) (r0 : Rat) : Rat := if clampApplies scheme r0 then fourFskMaxRate else r0

/-- `Er` before masking (R97, R99). -/
def rateExponent (xtal : Nat) (rate : Rat) : Int := flog2 (rate * pow2 20 / (xtal : Rat))

/-- `Mr` before masking, with the unmasked exponent (R99). -/
def rateMantissa (xtal : Nat) (rate : Rat) : Int :=
  roundQ (rate * pow2 28 / ((xtal : Rat) * pow2 (rateExponent xtal rate))) - 256

/-- `Ed` before masking. -/
def devExponent (xtal : Nat) (dev : Rat) : Int := flog2 (dev * pow2 14 / (xtal : Rat))

/-- `Md` before masking, with the unmasked exponent (R99). -/
def devMantissa (xtal : Nat) (dev : Rat) : Int :=
  roundQ (dev * pow2 17 / ((xtal : Rat) * pow2 (devExponent xtal dev))) - 8

/-- Carson's rule (R97). -/
def carsonBw (rate dev : Rat) : Rat := 2 * (dev + rate)

/-- The result of R97 from the effective rate `r0 = baseRate × skew`; every field masked after all are computed (R99). -/
def drateDev (table : List Rat) (xtal : Nat) (r0 modIndex : Rat) (scheme : Scheme) : DrdResult :=
  let rate := clampedRate scheme r0
  let dev := rate * modIndex
  let bw := chanBw table (carsonBw rate dev)
  { rate := rate
    dev := dev
    reqBw := carsonBw rate dev
    clamped := clampApplies scheme r0
    chanbw_e := bw.1
    chanbw_m := bw.2
    drate_e := mask 4 (rateExponent xtal rate)
    drate_m := mask 8 (rateMantissa xtal rate)
    deviat_e := mask 3 (devExponent xtal dev)
    deviat_m := mask 3 (devMantissa xtal dev) }

/-- The refusal conditions of R97 and R108, in priority order: `flog2` is undefined at a rate or a deviation `≤ 0`. -/
def drateDevReasons (r0 modIndex : Rat) (scheme : Scheme) : List (Bool × RefReason) :=
  [(decide (clampedRate scheme r0 ≤ 0), .rateNonpos), (decide (clampedRate scheme r0 * modIndex ≤ 0), .devNonpos)]

/-- DRATE_DEV (R97). -/
def execDrateDev (baseRate skew modIndex : Rat) (scheme : Scheme) (s : State) : Host.Outcome State Fault Refusal :=
  unlessRefused (drateDevReasons (baseRate * skew) modIndex scheme) s
    (.next (respond (.drd (drateDev s.params.bwThreshold s.xtal (baseRate * skew) modIndex scheme))
      (emit (clampNotices scheme (baseRate * skew)) s)))

/-! ## EFF_RATE and BYTE_TIME -/

/-- R101: `(XTAL / 2^28) × (256 + drate_m) × 2^drate_e`. -/
def effRate (xtal : Nat) (p : RadioRegisterParms) : Rat :=
  (xtal : Rat) / pow2 28 * ((256 + p.drate_m : Nat) : Rat) * ((2 ^ p.drate_e : Nat) : Rat)

/-- R103: microseconds to send one byte. Only bit 0 of `fecwhite` counts, and only the word of 4FSK halves. -/
def byteTime (xtal : Nat) (p : RadioRegisterParms) : Rat :=
  let t0 := 8000000 / effRate xtal p
  let t1 := if modDec p.mod = .fsk4 then t0 / 2 else t0
  if bitAt p.fecwhite 0 then t1 * 2 else t1

/-- EFF_RATE (R101). -/
def execEffRate (parms : RadioRegisterParms) (s : State) : Host.Outcome State Fault Refusal :=
  unlessRefused [] s (.next (respond (.rational (effRate s.xtal parms)) s))

/-- BYTE_TIME (R103). -/
def execByteTime (parms : RadioRegisterParms) (s : State) : Host.Outcome State Fault Refusal :=
  unlessRefused [] s (.next (respond (.rational (byteTime s.xtal parms)) s))

end Sys2Proof.Machine
end

