-- ==== Sys2Proof/Machine/ConfigEncode.lean ====
section
/-! DEFINITION. ENCODE_CONFIG, PARMS_SER and PARMS_DES (spec 44_config_encode.md), over the byte layout of 30_encoding.md R71. -/

namespace Sys2Proof.Machine

/-- R109: the encoded record. `SYNC_MODE` and the zero channel spacing are R110's, the flag and packet fields R111's. -/
def encodeConfig (p : Params) (xtal : Nat) (cfg : RadioLinkConfig) : RadioRegisterParms :=
  let d := drateDev p.bwThreshold xtal (cfg.baseRate * cfg.skew) cfg.modIndex cfg.scheme
  { freq := freqWord xtal cfg.freqHz
    ifw := ifWord xtal cfg.ifHz
    mod := modEnc cfg.scheme
    sync := p.syncMode
    chanspc_m := 0
    chanspc_e := 0
    chanbw_m := d.chanbw_m
    chanbw_e := d.chanbw_e
    drate_m := d.drate_m
    drate_e := d.drate_e
    deviat_m := d.deviat_m
    deviat_e := d.deviat_e
    fecwhite := 2 * flagBit cfg.whitening + flagBit cfg.fec
    pktlen := mask 8 (cfg.pktLen : Int)
    pktmode := flagBit cfg.varLen
    preamble := mask 3 (cfg.preambleSel : Int) }

/-- The refusal conditions of ENCODE_CONFIG are DRATE_DEV's (R109, R116). -/
def encodeConfigReasons (cfg : RadioLinkConfig) : List (Bool × RefReason) :=
  drateDevReasons (cfg.baseRate * cfg.skew) cfg.modIndex cfg.scheme

/-- The notices of ENCODE_CONFIG are DRATE_DEV's (R109). -/
def encodeConfigNotices (cfg : RadioLinkConfig) : List Notice := clampNotices cfg.scheme (cfg.baseRate * cfg.skew)

/-- R112: the 18 bytes of the INIT payload (30_encoding.md R71). -/
def parmsSer (p : RadioRegisterParms) : List Byte :=
  bytesBE24 p.freq ++
    [toByte p.ifw, toByte p.mod, toByte p.sync, toByte p.chanspc_m, toByte p.chanspc_e, toByte p.chanbw_m, toByte p.chanbw_e,
     toByte p.drate_m, toByte p.drate_e, toByte p.deviat_m, toByte p.deviat_e, toByte p.fecwhite, toByte p.pktlen,
     toByte p.pktmode, toByte p.preamble]

/-- R113: the receiving side's decode of 18 bytes; bits above a field's width are discarded. A sequence of another length has none. -/
def parmsDes (s : List Byte) : Option RadioRegisterParms :=
  match s with
  | [b0, b1, b2, b3, b4, b5, b6, b7, b8, b9, b10, b11, b12, b13, b14, b15, b16, b17] =>
    some
      { freq := wordBE24 b0 b1 b2
        ifw := bitField b3.toNat 4 0
        mod := bitField b4.toNat 2 0
        sync := bitField b5.toNat 2 0
        chanspc_m := b6.toNat
        chanspc_e := bitField b7.toNat 1 0
        chanbw_m := bitField b8.toNat 1 0
        chanbw_e := bitField b9.toNat 1 0
        drate_m := b10.toNat
        drate_e := bitField b11.toNat 3 0
        deviat_m := bitField b12.toNat 2 0
        deviat_e := bitField b13.toNat 2 0
        fecwhite := b14.toNat
        pktlen := b15.toNat
        pktmode := bitField b16.toNat 0 0
        preamble := bitField b17.toNat 2 0 }
  | _ => none

/-- ENCODE_CONFIG (R109). -/
def execEncodeConfig (cfg : RadioLinkConfig) (s : State) : Host.Outcome State Fault Refusal :=
  unlessRefused (encodeConfigReasons cfg) s
    (.next (respond (.parms (encodeConfig s.params s.xtal cfg)) (emit (encodeConfigNotices cfg) s)))

/-- PARMS_SER (R112). -/
def execParmsSer (parms : RadioRegisterParms) (s : State) : Host.Outcome State Fault Refusal :=
  unlessRefused [(!parmsInWidth parms, .argRange)] s (.next (respond (.bytes (parmsSer parms)) s))

/-- PARMS_DES (R113): a sequence that is not of 18 bytes has no parms and is refused. -/
def execParmsDes (bytes : List Byte) (s : State) : Host.Outcome State Fault Refusal :=
  match parmsDes bytes with
  | some p => unlessRefused [] s (.next (respond (.parms p) s))
  | none => unlessRefused [(true, .argRange)] s (.next s)

end Sys2Proof.Machine
end

