-- ==== Sys2Proof/Machine/Envelope.lean ====
section
/-! DEFINITION. ENV_INIT, ENV_STATUS_QUERY, ENV_TX_BLOCK and ENV_PARSE (spec 45_envelope.md): the envelope codec of 30_encoding.md R66. The four
are pure: they touch neither `SCRATCH` nor the stream (20_memory.md R38). -/

namespace Sys2Proof.Machine

/-- R117: `[CMD_INIT, 18] ++ PARMS_SER(parms)`. -/
def envInit (p : Params) (parms : RadioRegisterParms) : List Byte := p.cmdInit :: toByte parmsLen :: parmsSer parms

/-- R118: `[CMD_STATUS_QUERY, 0]`. -/
def envStatusQuery (p : Params) : List Byte := [p.cmdStatusQuery, 0]

/-- R119: `[CMD_TX_BLOCK, n + 2, n, countdown] ++ block` with `n = |block|`; the countdown is copied (30_encoding.md R72). -/
def envTxBlock (p : Params) (countdown : Nat) (block : List Byte) : List Byte :=
  [p.cmdTxBlock, toByte (block.length + 2), toByte block.length, toByte countdown] ++ block

/-- The kind a type byte stands for (R120). -/
def envKind (p : Params) (type : Byte) : EnvKind :=
  if type = p.cmdInit then .init
  else if type = p.cmdStatusQuery then .statusQuery
  else if type = p.cmdTxBlock then .txBlock
  else .unknown

/-- R120: every byte sequence parses. -/
def envParse (p : Params) (s : List Byte) : ParseResult :=
  match s with
  | type :: len :: rest =>
    { kind := envKind p type
      type := some type
      len := some len.toNat
      payload := rest.take len.toNat
      complete := decide (len.toNat ≤ rest.length)
      trailing := rest.length - len.toNat }
  | _ => { kind := .short, type := none, len := none, payload := [], complete := false, trailing := 0 }

/-- The split of a payload `[blockSize, blockCountdown] ++ blockBytes` (R120; `blockSize` is not checked). -/
def splitTxBlock (payload : List Byte) : Option TxBlockBody :=
  match payload with
  | size :: countdown :: block => some { blockSize := size, blockCountdown := countdown, blockBytes := block }
  | _ => none

/-- The split of a parsed TX_BLOCK envelope: for `kind = TX_BLOCK` with `complete` and `len ≥ 2` (R120). -/
def txBlockBody (r : ParseResult) : Option TxBlockBody :=
  if r.kind = .txBlock && r.complete then splitTxBlock r.payload else none

/-- ENV_INIT (R117). -/
def execEnvInit (parms : RadioRegisterParms) (s : State) : Host.Outcome State Fault Refusal :=
  unlessRefused [(!parmsInWidth parms, .argRange)] s (.next (respond (.bytes (envInit s.params parms)) s))

/-- ENV_STATUS_QUERY (R118). -/
def execEnvStatusQuery (s : State) : Host.Outcome State Fault Refusal :=
  unlessRefused [] s (.next (respond (.bytes (envStatusQuery s.params)) s))

/-- ENV_TX_BLOCK (R119). -/
def execEnvTxBlock (countdown : Nat) (block : List Byte) (s : State) : Host.Outcome State Fault Refusal :=
  unlessRefused [(!byteInRange countdown, .argRange), (blockTooLong block, .blockTooLong)] s
    (.next (respond (.bytes (envTxBlock s.params countdown block)) s))

/-- ENV_PARSE (R120). -/
def execEnvParse (bytes : List Byte) (s : State) : Host.Outcome State Fault Refusal :=
  unlessRefused [] s (.next (respond (.parsed (envParse s.params bytes)) s))

end Sys2Proof.Machine
end

