-- ==== Sys2Proof/Machine/Command.lean ====
section
/-! DEFINITION. The wire commands INIT, STATUS_QUERY and TX_BLOCK (spec 30_encoding.md R66, R67), the ENVELOPE rows of spec/opcode_table.json.

The block sends them inside SEND_INIT, QUERY_STATUS and SEND_BLOCK. What the bridge does with one is in no rule (93_implementation_defined.md U14).
What the spec does give for an envelope is its decode: the header and payload of 45_envelope.md R120, the split of a TX_BLOCK payload (R120),
and the receiving side's decode of an INIT payload (44_config_encode.md R113). That decode is the meaning of the three rows, pure like
ENV_PARSE (DEDUCED, log 5). -/

namespace Sys2Proof.Machine

/-- CMD.INIT: the parsed envelope, and the parms of a payload of 18 bytes. -/
def execCmdInit (payload : List Byte) (s : State) : Host.Outcome State Fault Refusal :=
  unlessRefused [] s
    (.next (respond (.command (envParse s.params (encodeEnvelope s.params.cmdInit payload)) (.init (parmsDes payload))) s))

/-- CMD.STATUS_QUERY: the parsed envelope. -/
def execCmdStatusQuery (payload : List Byte) (s : State) : Host.Outcome State Fault Refusal :=
  unlessRefused [] s
    (.next (respond (.command (envParse s.params (encodeEnvelope s.params.cmdStatusQuery payload)) .statusQuery) s))

/-- CMD.TX_BLOCK: the parsed envelope, and the split of its payload. -/
def execCmdTxBlock (payload : List Byte) (s : State) : Host.Outcome State Fault Refusal :=
  unlessRefused [] s
    (.next (respond
      (.command (envParse s.params (encodeEnvelope s.params.cmdTxBlock payload)) (.txBlock (splitTxBlock payload))) s))

end Sys2Proof.Machine
end

