-- ==== Sys2Proof/Machine/StatusDecode.lean ====
section
/-! DEFINITION. STATUS_DECODE, RSSI_DBM and FSM_NAME (spec 46_status_decode.md), over the payload layout of 30_encoding.md R75 to R81. The bit
positions inside the crc+lqi, flags and FIFO bytes and the sign of the frequency offset are the spec's, marked there as general
knowledge (log 16). -/

namespace Sys2Proof.Machine

/-- R127: `sext_8(r) / 2 - 74`, exact. -/
def rssiDbm (r : Nat) : Rat :=
  if r ≤ 127 then (r : Rat) / 2 - rssiOffset else ((r : Rat) - 256) / 2 - rssiOffset

/-- R125: the record of a 12-byte payload; a sequence of another length has none. -/
def statusDecode (p : List Byte) : Option StatusRecord :=
  match p with
  | [b0, b1, b2, b3, b4, b5, b6, b7, b8, b9, b10, b11] =>
    some
      { partNum := b0
        version := b1
        freqOffRaw := b2
        freqOff := sext8 b2
        crcOk := bitAt b3.toNat 7
        lqi := bitField b3.toNat 6 0
        rssiRaw := b4
        rssiDbm := rssiDbm b4.toNat
        fsmState := bitField b5.toNat 4 0
        worTimer := wordBE16 b6 b7
        flagsRaw := b8
        cs := bitAt b8.toNat 6
        pqt := bitAt b8.toNat 5
        cca := bitAt b8.toNat 4
        sfd := bitAt b8.toNat 3
        gdo2 := bitAt b8.toNat 2
        gdo0 := bitAt b8.toNat 0
        vcoDac := b9
        txUnderflow := bitAt b10.toNat 7
        txCount := bitField b10.toNat 6 0
        rxOverflow := bitAt b11.toNat 7
        rxCount := bitField b11.toNat 6 0 }
  | _ => none

/-- R130 with `FSM_NAMES` of 10_state.md R33: entries 23 to 31 are "undefined". -/
def fsmName (p : Params) (code : Nat) : String :=
  match p.fsmNames[code]? with
  | some name => if code ≤ 22 then name else "undefined"
  | none => "undefined"

/-- STATUS_DECODE (R125): a sequence that is not of 12 bytes has no record and is refused. -/
def execStatusDecode (payload : List Byte) (s : State) : Host.Outcome State Fault Refusal :=
  match statusDecode payload with
  | some st => unlessRefused [] s (.next (respond (.status st) s))
  | none => unlessRefused [(true, .argRange)] s (.next s)

/-- RSSI_DBM (R127). -/
def execRssiDbm (r : Nat) (s : State) : Host.Outcome State Fault Refusal :=
  unlessRefused [(!byteInRange r, .argRange)] s (.next (respond (.rational (rssiDbm r)) s))

/-- FSM_NAME (R130). -/
def execFsmName (code : Nat) (s : State) : Host.Outcome State Fault Refusal :=
  unlessRefused [(!fsmCodeInRange code, .argRange)] s (.next (respond (.text (fsmName s.params code)) s))

end Sys2Proof.Machine
end

