-- ==== Sys2Proof/Machine/Transactions.lean ====
section
/-! DEFINITION. The reply sequencer and the transactions (spec 47_transactions.md): READ_WITH_TIMEOUT, SEND_INIT, QUERY_STATUS, SEND_BLOCK,
SET_XTAL, and the attempt step of R143 (2), which each of the four first ends with (R143 (3)). -/

namespace Sys2Proof.Machine

/-! ## Request steps (R143 (1)) -/

/-- READ_WITH_TIMEOUT (R134): the request step makes no write. -/
def execReadWithTimeout (maxAttempts : Nat) (s : State) : Host.Outcome State Fault Refusal :=
  unlessRefused [(maxAttempts == 0, .attemptsZero)] s (.next (beginPoll .readWithTimeout maxAttempts s))

/-- SEND_INIT (R137), up to and including its write. The INIT envelope always fits a buffer of a valid capacity (60_exceptions.md R154). -/
def execSendInit (cfg : RadioLinkConfig) (s : State) : Host.Outcome State Fault Refusal :=
  let env := envInit s.params (encodeConfig s.params s.xtal cfg)
  unlessRefused ((overCapacity env.length s, .envOverCapacity) :: encodeConfigReasons cfg) s
    (beginTransaction .sendInit env s.params.initAttempts (emit (encodeConfigNotices cfg) s))

/-- QUERY_STATUS (R140), up to and including its write. -/
def execQueryStatus (s : State) : Host.Outcome State Fault Refusal :=
  let env := envStatusQuery s.params
  unlessRefused [(overCapacity env.length s, .envOverCapacity)] s
    (beginTransaction .queryStatus env s.params.statusAttempts s)

/-- SEND_BLOCK (R144), up to and including its write. -/
def execSendBlock (countdown : Nat) (block : List Byte) (maxAttempts : Nat) (s : State) : Host.Outcome State Fault Refusal :=
  let env := envTxBlock s.params countdown block
  unlessRefused
    [(!byteInRange countdown, .argRange), (blockTooLong block, .blockTooLong), (overCapacity env.length s, .envOverCapacity),
     (maxAttempts == 0, .attemptsZero)] s
    (beginTransaction .sendBlock env maxAttempts s)

/-- SET_XTAL (R148). -/
def execSetXtal (hz : Nat) (s : State) : Host.Outcome State Fault Refusal :=
  unlessRefused [(hz == 0, .xtalZero)] s (.next (respond .ack { s with xtal := hz }))

/-! ## Attempt steps (R143 (2), (3)) -/

/-- The address of a reply's payload (20_memory.md R40, R59). -/
def replyPayloadAt : Nat := 2

/-- The result of QUERY_STATUS from the poll's count `n` (R140): the payload is read from `SCRATCH[2 .. 13]`, bytes the reply did not reach
being stale (46_status_decode.md R126). Nothing for a buffer that does not hold that run. -/
def statusResult (w : Int) (len : Nat) (n : Int) (s : State) : Option Result :=
  match memRead replyPayloadAt statusLen s with
  | none => none
  | some p =>
    match statusDecode p with
    | none => none
    | some st => some (statusTag w len n st)

/-- The result of the transaction in flight when its poll returns `n` (R134, R137, R138, R140, R144). -/
def transactionResult (p : Pending) (n : Int) (s : State) : Option Result :=
  match p with
  | .readWithTimeout => some (.count n)
  | .sendInit w len => some (.count (transportCount w len n))
  | .queryStatus w len => statusResult w len n s
  | .sendBlock w len => some (.count (transportCount w len n))

/-- The poll returns `n` (R143 (3)): the result is computed, `PENDING` cleared, `SEQ <- IDLE`. `ATTEMPTS_LEFT` and
`LAST_COUNT` are unspecified from then on (10_state.md R22, U10): DESIGN CHOICE, they keep their last values while `IDLE` (log 8). A poll
without a transaction, which no run reaches (log 20), returns nothing to the host. -/
def completePoll (n : Int) (s : State) : Host.Outcome State Fault Refusal :=
  match s.pending with
  | none => .next { s with seq := .idle }
  | some p =>
    match transactionResult p n s with
    | none => .fault .scratchRange
    | some v => .next (respond v { s with seq := .idle, pending := none })

/-- A failed attempt (R134): sleep, decrement, and when no attempt is left return the last count. -/
def failedAttempt (n : Int) (s : State) : Host.Outcome State Fault Refusal :=
  let s' := { sleep s with attemptsLeft := s.attemptsLeft - 1 }
  if s'.attemptsLeft = 0 then completePoll n s' else .next s'

/-- One iteration of the loop of R134: one read, then success, or a failed attempt. -/
def attemptStep (s : State) : Host.Outcome State Fault Refusal :=
  match streamRead readMax s with
  | none => .fault .scratchRange
  | some r =>
    if 0 < r.1 then completePoll r.1 { r.2 with lastCount := r.1 } else failedAttempt r.1 { r.2 with lastCount := r.1 }

end Sys2Proof.Machine
end

