-- ==== Sys2Proof/Machine/Dispatch.lean ====
section
/-! DEFINITION. The dispatch: one arm per constructor of Instr, each one direct call of that instruction's meaning. -/

namespace Sys2Proof.Machine

def exec (i : Instr) (s : State) : Host.Outcome State Fault Refusal :=
  match i with
  | .freqWord freqHz => Sys2Proof.Machine.execFreqWord freqHz s
  | .ifWord ifHz => Sys2Proof.Machine.execIfWord ifHz s
  | .modEnc scheme => Sys2Proof.Machine.execModEnc scheme s
  | .modDec word => Sys2Proof.Machine.execModDec word s
  | .chanBw reqBw => Sys2Proof.Machine.execChanBw reqBw s
  | .drateDev baseRate skew modIndex scheme => Sys2Proof.Machine.execDrateDev baseRate skew modIndex scheme s
  | .effRate parms => Sys2Proof.Machine.execEffRate parms s
  | .byteTime parms => Sys2Proof.Machine.execByteTime parms s
  | .encodeConfig cfg => Sys2Proof.Machine.execEncodeConfig cfg s
  | .parmsSer parms => Sys2Proof.Machine.execParmsSer parms s
  | .parmsDes bytes => Sys2Proof.Machine.execParmsDes bytes s
  | .envInit parms => Sys2Proof.Machine.execEnvInit parms s
  | .envStatusQuery => Sys2Proof.Machine.execEnvStatusQuery s
  | .envTxBlock countdown block => Sys2Proof.Machine.execEnvTxBlock countdown block s
  | .envParse bytes => Sys2Proof.Machine.execEnvParse bytes s
  | .statusDecode payload => Sys2Proof.Machine.execStatusDecode payload s
  | .rssiDbm r => Sys2Proof.Machine.execRssiDbm r s
  | .fsmName code => Sys2Proof.Machine.execFsmName code s
  | .readWithTimeout maxAttempts => Sys2Proof.Machine.execReadWithTimeout maxAttempts s
  | .sendInit cfg => Sys2Proof.Machine.execSendInit cfg s
  | .queryStatus => Sys2Proof.Machine.execQueryStatus s
  | .sendBlock countdown block maxAttempts => Sys2Proof.Machine.execSendBlock countdown block maxAttempts s
  | .setXtal hz => Sys2Proof.Machine.execSetXtal hz s
  | .cmdInit payload => Sys2Proof.Machine.execCmdInit payload s
  | .cmdStatusQuery payload => Sys2Proof.Machine.execCmdStatusQuery payload s
  | .cmdTxBlock payload => Sys2Proof.Machine.execCmdTxBlock payload s

end Sys2Proof.Machine
end

