-- ==== Sys2Proof/Machine/Fetch.lean ====
section
/-! DEFINITION. What the block does next (spec 47_transactions.md R143, 10_state.md R18, R23): it has no program counter and fetches no
instructions; in `IDLE` it takes the host's next request, in `POLLING` it makes an attempt, unless the host issues a request too early. -/

namespace Sys2Proof.Machine

/-- What comes next: nothing to do, an attempt, or a request taken, with the state after taking it. -/
inductive Fetched where
  | wait
  | attempt
  | take (e : Encoded) (s : State)
deriving DecidableEq, Repr

/-- The request `a` leaves the inbox and enters the log. -/
def takeRequest (a : Arrival) (rest : List Arrival) (s : State) : Fetched :=
  .take a.body { s with inbox := rest, hostLog := s.hostLog ++ [.request a.body] }

/-- R143: in `IDLE` the host's oldest request, if any (R167: the block waits for one); in `POLLING` an attempt, or a request the host
issues without waiting (R172), which will be refused (R23). -/
def fetch (s : State) : Fetched :=
  match s.inbox with
  | [] => match s.seq with | .idle => .wait | .polling => .attempt
  | a :: rest => match s.seq with | .idle => takeRequest a rest s | .polling => if a.early then takeRequest a rest s else .attempt

/-- An encoded form that stands for no instruction: a reserved code is refused (30_encoding.md R63), a tuple that is not the code's is out of
its range (R64), and bytes that are no command envelope are answered with what 45_envelope.md R120 says of them, which is never a refusal. -/
def undecodable (err : DecodeError) (e : Encoded) (s : State) : Host.Outcome State Fault Refusal :=
  match e with
  | .request _ _ =>
    unlessRefused [(err = .reservedOp, .reservedOp), (true, .argRange)] s (.next s)
  | .envelope bytes => unlessRefused [] s (.next (respond (.parsed (envParse s.params bytes)) s))

/-- The table word `w` as a request that reaches the block next, whatever the block is doing: the host issues it without waiting. -/
def tableWordArrival (w : Nat) : Arrival :=
  { early := true, body := .request (BitVec.ofNat 5 w) (zeroArgs (BitVec.ofNat 5 w)) }

end Sys2Proof.Machine
end

