-- ==== Sys2Proof/Machine/Step.lean ====
section
/-! DEFINITION. One step of the block (spec 47_transactions.md R143): a request step, an attempt step, or waiting for the host. -/

namespace Sys2Proof.Machine

/-- One step. In `IDLE` with nothing issued the block waits (70_reset_and_hazards.md R167). -/
def step (s : State) : Host.Outcome State Fault Refusal :=
  match fetch s with
  | .wait => .next s
  | .attempt => attemptStep s
  | .take e t =>
    match decode t.params e with
    | .ok i => exec i t
    | .error err => undecodable err e t

/-- `s` with the table word `w` issued as the request the block takes next (log 4). -/
def State.withFetchWord (s : State) (_nbits w : Nat) : State := { s with inbox := tableWordArrival w :: s.inbox }

end Sys2Proof.Machine
end

