-- ==== Sys2Proof/Safety.lean ====
section
/-! DEFINITION. What the statements say of a state and of a run: the invariant, the end of a run and its observation (spec
70_reset_and_hazards.md R180), the premise `REFUSED = false` of 60_exceptions.md R152, and the lower bound on time of 47_transactions.md R136. -/

namespace Sys2Proof.Machine

/-- The count the write returned, and the length offered, of a transaction in flight: the link answers at most the length offered
(20_memory.md R48), and an envelope fits the buffer (20_memory.md R44). -/
def Pending.Bounded (capacity : Nat) : Pending → Prop
  | .readWithTimeout => True
  | .sendInit w len | .queryStatus w len | .sendBlock w len => w ≤ (len : Int) ∧ len ≤ capacity

/-- The invariant of the machine. -/
structure State.Inv (s : State) : Prop where
  /-- The parameters meet the constraints of 00_scope.md R4. -/
  params_valid : s.params.Valid
  /-- `XTAL > 0` (10_state.md R20). -/
  xtal_pos : 0 < s.xtal
  /-- `SCRATCH` is in its canonical form. -/
  scratch_wf : Memory.wf s.scratch = true
  /-- Nothing is held outside the buffer (20_memory.md R37). -/
  scratch_range : ∀ c ∈ s.scratch, c.1 < s.params.scratchCapacity
  /-- `SEQ` is POLLING exactly while a transaction is in flight (10_state.md R19, R23; 47_transactions.md R143). -/
  polling_iff_pending : s.seq = .polling ↔ s.pending.isSome = true
  /-- A poll in flight has an attempt left (47_transactions.md R134). -/
  attempts_left : s.seq = .polling → 1 ≤ s.attemptsLeft
  /-- The transaction in flight is bounded. -/
  pending_bounded : ∀ p ∈ s.pending, p.Bounded s.params.scratchCapacity
  /-- Every notice carries a rate that was clamped (43_rate_deviation.md R98). -/
  diag_clamped : ∀ r0, Notice.fourFskClamp r0 ∈ s.diag → 300000 < r0

/-- The premise a claim about a run takes (60_exceptions.md R152 (c)). -/
def State.refusalFree (s : State) : Bool := !s.refused

/-- The end of a run (70_reset_and_hazards.md R180): no further request, `IDLE`, nothing pending. -/
def State.runEnded (s : State) : Bool := s.inbox.isEmpty && s.seq = .idle && s.pending.isNone

/-- The observation at the end of a run (R180). -/
structure Observation where
  hostLog : List HostEvent
  linkLog : List LinkCall
  diag : List Notice
  refused : Bool
  scratch : List Byte
deriving DecidableEq, Repr

/-- The observation of a state: requests and results, link calls with their answers, `DIAG`, `REFUSED`, the whole of `SCRATCH`. -/
def State.observation (s : State) : Observation where
  hostLog := s.hostLog
  linkLog := s.linkLog
  diag := s.diag
  refused := s.refused
  scratch := Memory.readRun s.scratch 0 s.params.scratchCapacity

/-- What the bridge has received of a link call's bytes: the first `w` of those offered, for a count `w` of 0 or more (20_memory.md R48). What it
has received of a write whose count is negative is in no rule, and the model says nothing there: DESIGN CHOICE `none` (log 26). -/
def LinkCall.sent : LinkCall → Option (List Byte)
  | .write offered w => if 0 ≤ w then some (offered.take w.toNat) else none
  | .read _ _ _ => some []

/-- The time a run has taken at least: one `POLL_INTERVAL` for each failed attempt (47_transactions.md R136, 70_reset_and_hazards.md R179). -/
def State.minElapsed (s : State) : Rat := (s.sleeps : Rat) * s.params.pollInterval

end Sys2Proof.Machine
end

