-- ==== Sys2Proof/Certificates/Slice0/Obligations.lean ====
section
/-! DEFINITION. The statements about the model, for the provers. Each docstring names the rule of spec/ it formalises; a statement that rests on a
choice of the model names the log entry. `Sys2Proof.Claims` holds the words the statements share. -/

namespace Sys2Proof.Claims

open Sys2Proof.Machine

/-- `s` with the result `v` returned to the host, and nothing else changed. -/
def answered (v : Result) (s : State) : State := { s with hostLog := s.hostLog ++ [.answer (.result v)] }

/-- `s` with the refusal `r` returned to the host and the mark `REFUSED` set, and nothing else changed. -/
def refusedWith (r : RefReason) (s : State) : State :=
  { s with refused := true, hostLog := s.hostLog ++ [.answer (.refused r)] }

/-- `s` after the request `a` at the head of its inbox has been taken, `rest` being what follows it. -/
def taken (a : Arrival) (rest : List Arrival) (s : State) : State :=
  { s with inbox := rest, hostLog := s.hostLog ++ [.request a.body] }

/-- The clamped rate of 43_rate_deviation.md R97. -/
def rateOf (scheme : Scheme) (r0 : ℚ) : ℚ := if scheme = .fsk4 ∧ 300000 < r0 then 300000 else r0

/-- The notices of 43_rate_deviation.md R97. -/
def noticesOf (scheme : Scheme) (r0 : ℚ) : List Notice := if scheme = .fsk4 ∧ 300000 < r0 then [.fourFskClamp r0] else []

/-- The condition of each refusal reason of 60_exceptions.md R154, for an operation that has been decoded. -/
def refusalHolds (i : Instr) (s : State) : RefReason → Prop
  | .busy => s.pending ≠ none
  | .reservedOp => False
  | .argRange =>
    match i with
    | .modDec word => 7 < word
    | .parmsSer p | .envInit p => parmsInWidth p = false
    | .parmsDes l => l.length ≠ 18
    | .envTxBlock c _ | .sendBlock c _ _ => 255 < c
    | .statusDecode l => l.length ≠ 12
    | .rssiDbm r => 255 < r
    | .fsmName code => 31 < code
    | _ => False
  | .blockTooLong =>
    match i with
    | .envTxBlock _ block | .sendBlock _ block _ => 253 < block.length
    | _ => False
  | .envOverCapacity =>
    match i with
    | .sendBlock _ block _ => s.params.scratchCapacity < 4 + block.length
    | _ => False
  | .attemptsZero =>
    match i with
    | .readWithTimeout k | .sendBlock _ _ k => k = 0
    | _ => False
  | .xtalZero =>
    match i with
    | .setXtal hz => hz = 0
    | _ => False
  | .rateNonpos =>
    match i with
    | .drateDev baseRate skew _ scheme => rateOf scheme (baseRate * skew) ≤ 0
    | .encodeConfig cfg | .sendInit cfg => rateOf cfg.scheme (cfg.baseRate * cfg.skew) ≤ 0
    | _ => False
  | .devNonpos =>
    match i with
    | .drateDev baseRate skew modIndex scheme => rateOf scheme (baseRate * skew) * modIndex ≤ 0
    | .encodeConfig cfg | .sendInit cfg => rateOf cfg.scheme (cfg.baseRate * cfg.skew) * cfg.modIndex ≤ 0
    | _ => False

/-- The place of a reason in the priority order of 60_exceptions.md R156. -/
def rank : RefReason → Nat
  | .busy => 0
  | .reservedOp => 1
  | .argRange => 2
  | .blockTooLong => 3
  | .envOverCapacity => 4
  | .attemptsZero => 5
  | .xtalZero => 6
  | .rateNonpos => 7
  | .devNonpos => 8

/-- `t` is `s` after the request step of a transaction (47_transactions.md R143 (1), 45_envelope.md R124) that writes the envelope `env`: the envelope
stands at `SCRATCH[0 .. L-1]`, every other byte is as before, it was offered to the stream, which took `w ≤ L` bytes, the poll begins
with `budget` attempts, `PENDING` is `mk w L`, `notices` were appended to `DIAG`, and nothing else changed. -/
def TransactionBegins (s t : State) (mk : Int → Nat → Pending) (env : List Byte) (budget : Nat) (notices : List Notice) : Prop :=
  ∃ (mem : Memory) (w : Int),
    w ≤ (env.length : Int) ∧
    (∀ w0 ws, s.writeScript = w0 :: ws → w = min w0 (env.length : Int)) ∧
    (∀ k (h : k < env.length), Memory.byteAt mem k = env[k]) ∧
    (∀ a, env.length ≤ a → Memory.byteAt mem a = Memory.byteAt s.scratch a) ∧
    t = { s with
          scratch := mem
          diag := s.diag ++ notices
          writeScript := s.writeScript.tail
          draws := if s.writeScript = [] then s.draws + 1 else s.draws
          linkLog := s.linkLog ++ [.write env w]
          seq := .polling
          attemptsLeft := budget
          pending := some (mk w env.length) }

/-- The result of the transaction `p` when its poll returns `n`, `mem` being the buffer then (47_transactions.md R134, R137, R138, R140, R144;
46_status_decode.md R126). -/
def ResultOf (p : Pending) (n : Int) (mem : Memory) (v : Result) : Prop :=
  match p with
  | .readWithTimeout => v = .count n
  | .sendInit w len | .sendBlock w len => v = .count (if w = (len : Int) then n else min w 0)
  | .queryStatus w len =>
    if w ≠ (len : Int) then v = .fail (min w 0)
    else if n < 12 then v = .fail n
    else ∃ st, statusDecode [Memory.byteAt mem 2, Memory.byteAt mem 3, Memory.byteAt mem 4, Memory.byteAt mem 5, Memory.byteAt mem 6,
          Memory.byteAt mem 7, Memory.byteAt mem 8, Memory.byteAt mem 9, Memory.byteAt mem 10, Memory.byteAt mem 11,
          Memory.byteAt mem 12, Memory.byteAt mem 13] = some st ∧ v = .ok st

/-- `ans` is what the link answers the next read of `s` with, `rest` the answers to come after it and `draws` the count of free draws then: the head
of the script, or, when the script is used up, a free draw (60_exceptions.md R160, log 10). -/
def NextAnswer (s : State) (ans : ReadAnswer) (rest : List ReadAnswer) (draws : Nat) : Prop :=
  nextReadAnswer s = ans ∧
    ((s.readScript = ans :: rest ∧ draws = s.draws) ∨
      (s.readScript = [] ∧ ans = Config.freeRead s.draws ∧ rest = [] ∧ draws = s.draws + 1))

/-- The operations that start a poll; every other operation answers in its request step (47_transactions.md R143). -/
def startsPoll : Instr → Bool
  | .readWithTimeout _ | .sendInit _ | .queryStatus | .sendBlock _ _ _ => true
  | _ => false

end Sys2Proof.Claims

open Sys2Proof Sys2Proof.Machine Sys2Proof.Claims

/-! ## Reset and the invariant -/

/-- 70_reset_and_hazards.md R167: the state after reset, for every block; what R167 leaves unspecified is not claimed, but that each byte of
`SCRATCH` is the reset draw. -/
def Obligations.ResetGivesTheStatedValues : Prop :=
  (∀ p : Params,
    (State.resetWith p).xtal = p.xtalDefault ∧ (State.resetWith p).seq = .idle ∧ (State.resetWith p).pending = none ∧
    (State.resetWith p).diag = [] ∧ (State.resetWith p).refused = false ∧ (State.resetWith p).params = p ∧
    ∀ a, Memory.byteAt (State.resetWith p).scratch a = Config.scratchDraw a) ∧
  State.reset = State.resetWith Params.reference ∧ Params.reference.xtalDefault = 26000000 ∧
  modTable = [(.fsk2, 0), (.gfsk, 1), (.ook, 3), (.fsk4, 4), (.msk, 7)]

/-- The invariant holds at reset of every block whose parameters meet 00_scope.md R4, the reference instantiation among them. -/
def Obligations.InvariantHoldsAtReset : Prop :=
  (∀ p : Params, p.Valid → (State.resetWith p).Inv) ∧ State.reset.Inv

/-- Every step keeps the invariant: valid parameters (R4, R6), `XTAL > 0` (R20), the buffer canonical and inside its capacity (R37), POLLING exactly
with a transaction in flight and an attempt left (R19, R23), a bounded write count (R48), clamp notices above 300,000 (R98). -/
def Obligations.StepKeepsTheInvariant : Prop := ∀ s t : State, s.Inv → step s = .next t → t.Inv

/-- 60_exceptions.md R149, R151: a request never stops the machine, in any state: exec answers a next state for every instruction. -/
def Obligations.EveryRequestEndsInANextState : Prop := ∀ (i : Instr) (s : State), ∃ t, exec i s = .next t

/-- 60_exceptions.md R151: the block has no fault state and is never stuck: a step from a state that meets the invariant answers a next state. -/
def Obligations.NoStepFaults : Prop := ∀ s : State, s.Inv → ∃ t, step s = .next t

/-- 60_exceptions.md R151, 47_transactions.md R134: the block never hangs. From a poll in flight it is `IDLE` with nothing pending after at most as many
steps as there are attempts left and early requests at the head of the inbox, each of which takes a step of its own to be refused (log 1); a
request not marked early waits, and adds none. -/
def Obligations.EveryPollEnds : Prop :=
  ∀ s : State, s.Inv → s.seq = .polling →
    ∃ k, k ≤ s.attemptsLeft + (s.inbox.takeWhile Arrival.early).length ∧
      ∃ t : State, Host.Core.run Sys2Proof.core k s = .next t ∧ t.seq = .idle ∧ t.pending = none

/-! ## Steps, decoding, refusals -/

/-- 47_transactions.md R143 (1): a step of the idle block takes the oldest request and, when it decodes, is exec of the decoded instruction; so is a
step of the polling block whose next request is issued early (log 1). `withFetchWord` makes the table word's instruction the next (log 4). -/
def Obligations.StepRunsTheDecodedInstruction : Prop :=
  (∀ (s : State) (a : Arrival) (rest : List Arrival) (i : Instr), s.inbox = a :: rest → (s.seq = .idle ∨ a.early = true) →
    decode s.params a.body = .ok i → step s = exec i (taken a rest s)) ∧
  (∀ (s : State) (nbits w : Nat) (i : Instr), decodeTableWord nbits w = some i →
    ∃ a : Arrival, decode s.params a.body = .ok i ∧
      step (s.withFetchWord nbits w) = exec i { s with hostLog := s.hostLog ++ [.request a.body] })

/-- 47_transactions.md R143 (2), 70_reset_and_hazards.md R167: a polling block makes an attempt unless a request comes early, and an idle block with no
request waits. -/
def Obligations.StepIsAnAttemptOrWaits : Prop :=
  (∀ s : State, s.seq = .polling → (∀ a rest, s.inbox = a :: rest → a.early = false) → step s = attemptStep s) ∧
  (∀ s : State, s.seq = .idle → s.inbox = [] → step s = .next s)

/-- 30_encoding.md R61, R62, R66, R67: decoding an encoded well-formed instruction gives it back, every argument at every value; an envelope also when
other bytes follow it (R69). -/
def Obligations.DecodeOfEncodeIsTheInstruction : Prop :=
  ∀ (p : Params) (i : Instr), p.Valid → i.wellFormed = true →
    decode p (encode p i) = .ok i ∧
    ∀ bytes tail, encode p i = .envelope bytes → decode p (.envelope (bytes ++ tail)) = .ok i

/-- 30_encoding.md R62, R69: each encoded form has one meaning. A request that decodes is the encoding of what it decodes to, and an envelope that decodes
begins with the encoding of what it decodes to, `2 + len` bytes. -/
def Obligations.EncodeOfDecodeIsTheForm : Prop :=
  (∀ (p : Params) (op : OpCode) (args : List Arg) (i : Instr), decodeRequest op args = .ok i → encode p i = .request op args) ∧
  (∀ (p : Params) (type len : Byte) (rest : List Byte) (i : Instr), decodeEnvelope p (type :: len :: rest) = .ok i →
    i.wellFormed = true ∧ encode p i = .envelope (type :: len :: rest.take len.toNat))

/-- Words written out from 30_encoding.md R62, R67, R72 decode to what they stand for. -/
def Obligations.WrittenOutWordsDecode : Prop :=
  decodeRequest 0b00001#5 [.nat 433920000] = .ok (.freqWord 433920000) ∧
  decodeRequest 0b00110#5 [.rat 9600, .rat 1, .rat (1 / 2), .scheme .fsk2] = .ok (.drateDev 9600 1 (1 / 2) .fsk2) ∧
  decodeRequest 0b01101#5 [] = .ok .envStatusQuery ∧
  decodeRequest 0b10101#5 [] = .ok .queryStatus ∧
  decodeRequest 0b10110#5 [.nat 0, .bytes [0xDE, 0xAD], .nat 3] = .ok (.sendBlock 0 [0xDE, 0xAD] 3) ∧
  decodeRequest 0b10111#5 [.nat 27000000] = .ok (.setXtal 27000000) ∧
  decodeRequest 0b00000#5 [] = .error .reservedOp ∧
  decodeRequest 0b11000#5 [] = .error .reservedOp ∧
  decodeEnvelope Params.reference [0x02, 0x00] = .ok (.cmdStatusQuery []) ∧
  decodeEnvelope Params.reference [0x03, 0x06, 0x04, 0x00, 0xDE, 0xAD, 0xBE, 0xEF] =
    .ok (.cmdTxBlock [0x04, 0x00, 0xDE, 0xAD, 0xBE, 0xEF])

/-- 30_encoding.md R63: a reserved op-select code is refused with `REF_RESERVED_OP`, whatever its arguments; every other code is an operation's. -/
def Obligations.ReservedCodeIsRefused : Prop :=
  (∀ (s : State) (a : Arrival) (rest : List Arrival) (op : OpCode) (args : List Arg), s.inbox = a :: rest →
    a.body = .request op args → s.seq = .idle → s.pending = none → (op = 0x00#5 ∨ 0x18#5 ≤ op) →
    step s = .next (refusedWith .reservedOp (taken a rest s))) ∧
  (∀ op : OpCode, 0x01#5 ≤ op → op ≤ 0x17#5 → ∃ args i, decodeRequest op args = .ok i)

/-- 70_reset_and_hazards.md R172, 10_state.md R23, 60_exceptions.md R154, R156: a request issued while a transaction is in flight is refused with
`REF_BUSY`, and nothing else happens. First of the decoded requests, then of every request that the host issues early (its form is the model's,
log 1), whatever its op-select code and its arguments: a reserved code and a tuple that is not the code's are refused so as well, `REF_BUSY`
standing before every other reason. -/
def Obligations.RequestInFlightIsRefusedAsBusy : Prop :=
  (∀ (i : Instr) (s : State), (∃ p op args, encode p i = .request op args) → s.pending ≠ none →
    exec i s = .next (refusedWith .busy s)) ∧
  (∀ (s : State) (a : Arrival) (rest : List Arrival) (op : OpCode) (args : List Arg), s.inbox = a :: rest → a.early = true →
    a.body = .request op args → s.pending ≠ none → step s = .next (refusedWith .busy (taken a rest s)))

/-- 60_exceptions.md R152: (a) and (b), a refused request changes `REFUSED` and gives its response, and nothing else; only a refusal sets `REFUSED`;
(c) no step clears it. -/
def Obligations.RefusalChangesOnlyTheMark : Prop :=
  (∀ (i : Instr) (s t : State) (r : RefReason), exec i s = .next t → t.hostLog = s.hostLog ++ [.answer (.refused r)] →
    t = refusedWith r s) ∧
  (∀ (i : Instr) (s t : State), exec i s = .next t → s.refused = false → t.refused = true → ∃ r, t = refusedWith r s) ∧
  (∀ s t : State, step s = .next t → s.refused = true → t.refused = true)

/-- 60_exceptions.md R154, R156: a decoded request is refused exactly when a condition of R154 holds, with the first reason in the order of R156. It also
ranges over the three wire commands; that one of these is refused with `REF_BUSY` during a poll, and never otherwise, is the model's reading
(log 25, log 5). -/
def Obligations.FirstReasonInPriorityOrderRefuses : Prop :=
  ∀ (i : Instr) (s : State), s.params.Valid →
    ∀ r : RefReason, exec i s = .next (refusedWith r s) ↔
      refusalHolds i s r ∧ ∀ q : RefReason, rank q < rank r → ¬refusalHolds i s q

/-! ## Frequency, modulation, bandwidth -/

/-- 40_frequency.md R85. -/
def Obligations.FreqWordIsTheFloorModulo24Bits : Prop :=
  ∀ (freqHz : Nat) (s : State), s.pending = none → 0 < s.xtal →
    exec (.freqWord freqHz) s =
      .next (answered (.word (⌊(freqHz : ℚ) * 2 ^ 16 / (s.xtal : ℚ)⌋ % 2 ^ 24).toNat) s)

/-- 40_frequency.md R87. -/
def Obligations.IfWordIsTheFloorModulo32 : Prop :=
  ∀ (ifHz : Nat) (s : State), s.pending = none → 0 < s.xtal →
    exec (.ifWord ifHz) s = .next (answered (.word (⌊(ifHz : ℚ) * 2 ^ 10 / (s.xtal : ℚ)⌋ % 32).toNat) s)

/-- 40_frequency.md R86 and R88: below their wraps both words are non-decreasing in the frequency, and the frequency word is unmasked; at
`XTAL × 2^8` it wraps to 0; the IF word repeats after `XTAL / 32` Hz, 32 steps. -/
def Obligations.FrequencyWordsAreMonotoneBelowTheirWraps : Prop :=
  ∀ xtal : Nat, 0 < xtal →
    (∀ f1 f2, f1 ≤ f2 → f2 < xtal * 2 ^ 8 → freqWord xtal f1 ≤ freqWord xtal f2 ∧ freqWord xtal f2 < 2 ^ 24 ∧
      freqWord xtal f2 = f2 * 2 ^ 16 / xtal) ∧
    freqWord xtal (xtal * 2 ^ 8) = 0 ∧
    (∀ f1 f2, f1 ≤ f2 → 32 * f2 < xtal → ifWord xtal f1 ≤ ifWord xtal f2) ∧
    (∀ f d, 32 * d = xtal → ifWord xtal (f + d) = ifWord xtal f)

/-- 41_modulation.md R89. -/
def Obligations.ModEncReturnsTheTableWord : Prop :=
  ∀ (scheme : Scheme) (s : State), s.pending = none →
    exec (.modEnc scheme) s =
      .next (answered (.word (match scheme with
        | .fsk2 => 0 | .gfsk => 1 | .ook => 3 | .fsk4 => 4 | .msk => 7 | .none => 0)) s)

/-- 41_modulation.md R90. -/
def Obligations.ModDecReturnsTheTableScheme : Prop :=
  ∀ (word : Nat) (s : State), s.pending = none →
    exec (.modDec word) s =
      match word with
      | 0 => .next (answered (.scheme .fsk2) s)
      | 1 => .next (answered (.scheme .gfsk) s)
      | 3 => .next (answered (.scheme .ook) s)
      | 4 => .next (answered (.scheme .fsk4) s)
      | 7 => .next (answered (.scheme .msk) s)
      | 2 | 5 | 6 => .next (answered (.scheme .none) s)
      | _ => .next (refusedWith .argRange s)

/-- 41_modulation.md R91: the round trip of the five schemes and of the five words; an unrecognized scheme has the word of 2FSK. -/
def Obligations.ModulationRoundTrip : Prop :=
  ∀ s : State, s.pending = none →
    (∀ scheme, scheme ≠ .none → ∃ w, exec (.modEnc scheme) s = .next (answered (.word w) s) ∧
      exec (.modDec w) s = .next (answered (.scheme scheme) s)) ∧
    (∀ w ∈ [0, 1, 3, 4, 7], ∃ scheme, exec (.modDec w) s = .next (answered (.scheme scheme) s) ∧
      exec (.modEnc scheme) s = .next (answered (.word w) s)) ∧
    exec (.modEnc .none) s = .next (answered (.word 0) s)

/-- 42_bandwidth.md R93: the first index, exponent outer and mantissa inner, whose threshold is strictly less than the requirement; (3, 3) when
there is none. -/
def Obligations.ChanBwIsTheFirstThresholdBelow : Prop :=
  ∀ (reqBw : ℚ) (s : State), s.pending = none → s.params.Valid →
    ∃ e m, e < 4 ∧ m < 4 ∧ exec (.chanBw reqBw) s = .next (answered (.chanBw e m) s) ∧
      ((∃ t, s.params.bwThreshold[4 * e + m]? = some t ∧ t < reqBw ∧
          ∀ j u, j < 4 * e + m → s.params.bwThreshold[j]? = some u → ¬u < reqBw) ∨
        ((∀ t ∈ s.params.bwThreshold, ¬t < reqBw) ∧ e = 3 ∧ m = 3))

/-- 42_bandwidth.md R95: a larger required bandwidth never selects a narrower setting. -/
def Obligations.WiderRequirementNeverSelectsNarrower : Prop :=
  ∀ (p : Params) (bw1 bw2 : ℚ), p.Valid → bw1 < bw2 →
    4 * (chanBw p.bwThreshold bw2).1 + (chanBw p.bwThreshold bw2).2 ≤ 4 * (chanBw p.bwThreshold bw1).1 + (chanBw p.bwThreshold bw1).2

/-- 42_bandwidth.md R96: (a) the result (3, 3) exactly at or below threshold 14; (b) index `i ≤ 14` exactly between thresholds `i` and `i - 1`. -/
def Obligations.ChanBwStepsAtTheThresholds : Prop :=
  ∀ (p : Params) (reqBw : ℚ), p.Valid →
    (chanBw p.bwThreshold reqBw = (3, 3) ↔ ∃ t, p.bwThreshold[14]? = some t ∧ reqBw ≤ t) ∧
    (∀ e m, e < 4 → m < 4 → 4 * e + m ≤ 14 →
      (chanBw p.bwThreshold reqBw = (e, m) ↔
        (∃ t, p.bwThreshold[4 * e + m]? = some t ∧ t < reqBw) ∧
        ∀ j u, j + 1 = 4 * e + m → p.bwThreshold[j]? = some u → reqBw ≤ u))

/-! ## Rate and deviation -/

/-- 43_rate_deviation.md R97, R99, R108: DRATE_DEV. A rate `≤ 0`, then a deviation `≤ 0`, is refused, without a notice. Else the exponents are the
`flog2` of 00_scope.md R10, said by their bounds, the mantissas are rounded with the unmasked exponents, and every field is masked. -/
def Obligations.DrateDevEncodesRateAndDeviation : Prop :=
  ∀ (baseRate skew modIndex : ℚ) (scheme : Scheme) (s : State), s.pending = none → 0 < s.xtal →
    (rateOf scheme (baseRate * skew) ≤ 0 → exec (.drateDev baseRate skew modIndex scheme) s = .next (refusedWith .rateNonpos s)) ∧
    (0 < rateOf scheme (baseRate * skew) → rateOf scheme (baseRate * skew) * modIndex ≤ 0 →
      exec (.drateDev baseRate skew modIndex scheme) s = .next (refusedWith .devNonpos s)) ∧
    (0 < rateOf scheme (baseRate * skew) → 0 < rateOf scheme (baseRate * skew) * modIndex →
      ∃ (rate dev : ℚ) (er ed : ℤ) (bw : Nat × Nat),
        rate = rateOf scheme (baseRate * skew) ∧ dev = rate * modIndex ∧
        (2 : ℚ) ^ er ≤ rate * 2 ^ 20 / (s.xtal : ℚ) ∧ rate * 2 ^ 20 / (s.xtal : ℚ) < (2 : ℚ) ^ (er + 1) ∧
        (2 : ℚ) ^ ed ≤ dev * 2 ^ 14 / (s.xtal : ℚ) ∧ dev * 2 ^ 14 / (s.xtal : ℚ) < (2 : ℚ) ^ (ed + 1) ∧
        exec (.chanBw (2 * (dev + rate))) s = .next (answered (.chanBw bw.1 bw.2) s) ∧
        exec (.drateDev baseRate skew modIndex scheme) s =
          .next (answered
            (.drd { rate := rate
                    dev := dev
                    reqBw := 2 * (dev + rate)
                    clamped := decide (scheme = .fsk4 ∧ 300000 < baseRate * skew)
                    chanbw_e := bw.1
                    chanbw_m := bw.2
                    drate_e := (er % 16).toNat
                    drate_m := ((⌊rate * 2 ^ 28 / ((s.xtal : ℚ) * (2 : ℚ) ^ er) + 1 / 2⌋ - 256) % 256).toNat
                    deviat_e := (ed % 8).toNat
                    deviat_m := ((⌊dev * 2 ^ 17 / ((s.xtal : ℚ) * (2 : ℚ) ^ ed) + 1 / 2⌋ - 8) % 8).toNat })
            { s with diag := s.diag ++ noticesOf scheme (baseRate * skew) }))

/-- 43_rate_deviation.md R98: a 4FSK rate above 300,000 becomes exactly 300,000, everything is computed from it, and the notice carries the unclamped
rate; at 300,000 and for every other scheme nothing is clamped and no notice is emitted. -/
def Obligations.FourFskRateIsClampedAt300000 : Prop :=
  ∀ (baseRate skew modIndex : ℚ) (scheme : Scheme) (s : State), s.pending = none → 0 < modIndex →
    (scheme = .fsk4 → 300000 < baseRate * skew →
      ∃ d : DrdResult, d.rate = 300000 ∧ d.dev = 300000 * modIndex ∧ d.reqBw = 2 * (300000 * modIndex + 300000) ∧ d.clamped = true ∧
        exec (.drateDev baseRate skew modIndex scheme) s =
          .next (answered (.drd d) { s with diag := s.diag ++ [.fourFskClamp (baseRate * skew)] }) ∧
        exec (.drateDev 300000 1 modIndex .fsk4) s = .next (answered (.drd { d with clamped := false }) s)) ∧
    (0 < baseRate * skew → (scheme ≠ .fsk4 ∨ baseRate * skew ≤ 300000) →
      ∃ d : DrdResult, d.rate = baseRate * skew ∧ d.clamped = false ∧
        exec (.drateDev baseRate skew modIndex scheme) s = .next (answered (.drd d) s))

/-- 43_rate_deviation.md R100 and R105: where the exponents are in range, and the bounds of the unmasked mantissas: `Mr` is 256 exactly in the overflow
band, `Md` is 8 exactly in its own, and the fields are then 0. -/
def Obligations.ExponentRangeAndMantissaOverflowBand : Prop :=
  ∀ (xtal : Nat) (rate dev : ℚ), 0 < xtal → 0 < rate → 0 < dev →
    (0 ≤ rateExponent xtal rate ∧ rateExponent xtal rate ≤ 15 ↔ (xtal : ℚ) / 2 ^ 20 ≤ rate ∧ rate < (xtal : ℚ) / 2 ^ 4) ∧
    (0 ≤ devExponent xtal dev ∧ devExponent xtal dev ≤ 7 ↔ (xtal : ℚ) / 2 ^ 14 ≤ dev ∧ dev < (xtal : ℚ) / 2 ^ 6) ∧
    0 ≤ rateMantissa xtal rate ∧ rateMantissa xtal rate ≤ 256 ∧ 0 ≤ devMantissa xtal dev ∧ devMantissa xtal dev ≤ 8 ∧
    (rateMantissa xtal rate = 256 ↔ 1023 / 2 ≤ rate * 2 ^ 28 / ((xtal : ℚ) * (2 : ℚ) ^ rateExponent xtal rate)) ∧
    (devMantissa xtal dev = 8 ↔ 31 / 2 ≤ dev * 2 ^ 17 / ((xtal : ℚ) * (2 : ℚ) ^ devExponent xtal dev)) ∧
    (rateMantissa xtal rate = 256 → mask 8 (rateMantissa xtal rate) = 0) ∧
    (devMantissa xtal dev = 8 → mask 3 (devMantissa xtal dev) = 0)

/-- 43_rate_deviation.md R102: in the encoding domain of R100 the decoded rate is within `rate × 2^-9` of the clamped rate. -/
def Obligations.DecodedRateIsCloseInTheDomain : Prop :=
  ∀ (baseRate skew modIndex : ℚ) (scheme : Scheme) (s t : State) (d : DrdResult) (parms : RadioRegisterParms), 0 < s.xtal →
    exec (.drateDev baseRate skew modIndex scheme) s = .next t → t.hostLog = s.hostLog ++ [.answer (.result (.drd d))] →
    0 ≤ rateExponent s.xtal d.rate → rateExponent s.xtal d.rate ≤ 15 → rateMantissa s.xtal d.rate ≤ 255 →
    parms.drate_m = d.drate_m → parms.drate_e = d.drate_e →
    ∃ eff : ℚ, exec (.effRate parms) s = .next (answered (.rational eff) s) ∧ |eff - d.rate| ≤ d.rate / 2 ^ 9

/-- The formula of 43_rate_deviation.md R101: EFF_RATE, for every parms; the result is positive. That a field outside its width is used as it is, is
the model's reading (log 14). -/
def Obligations.EffRateIsTheInverseFormula : Prop :=
  ∀ (parms : RadioRegisterParms) (s : State), s.pending = none →
    exec (.effRate parms) s =
      .next (answered (.rational ((s.xtal : ℚ) / 2 ^ 28 * (256 + (parms.drate_m : ℚ)) * 2 ^ parms.drate_e)) s) ∧
    (0 < s.xtal → 0 < (s.xtal : ℚ) / 2 ^ 28 * (256 + (parms.drate_m : ℚ)) * 2 ^ parms.drate_e)

/-- The rule 43_rate_deviation.md R103: BYTE_TIME is 8,000,000 over the effective rate, halved exactly for modulation word 4, doubled exactly when bit 0
of `fecwhite` is set. That a field outside its width is used as it is, a modulation word above 7 being not halved, is the model's reading
(log 14). -/
def Obligations.ByteTimeHalvesFor4fskAndDoublesForFec : Prop :=
  ∀ (parms : RadioRegisterParms) (s : State), s.pending = none → 0 < s.xtal →
    ∃ eff : ℚ, 0 < eff ∧ exec (.effRate parms) s = .next (answered (.rational eff) s) ∧
      exec (.byteTime parms) s =
        .next (answered (.rational (8000000 / eff / (if parms.mod = 4 then 2 else 1) * (if parms.fecwhite % 2 = 1 then 2 else 1))) s)

/-! ## Configuration and payload -/

/-- 44_config_encode.md R109, R110, R111: ENCODE_CONFIG's fields are what the single operations return for the config's fields, the parameter
`SYNC_MODE`, zeros, and the flag and packet fields; the notices are DRATE_DEV's, and so are the refusals, which write no notice.
The preamble code's width, 3 bits, is PRESUMED: the spec gives it from general knowledge (93_implementation_defined.md G8; log 16). -/
def Obligations.EncodeConfigFillsEveryField : Prop :=
  ∀ (cfg : RadioLinkConfig) (s : State), s.pending = none →
    (rateOf cfg.scheme (cfg.baseRate * cfg.skew) ≤ 0 → exec (.encodeConfig cfg) s = .next (refusedWith .rateNonpos s)) ∧
    (0 < rateOf cfg.scheme (cfg.baseRate * cfg.skew) → rateOf cfg.scheme (cfg.baseRate * cfg.skew) * cfg.modIndex ≤ 0 →
      exec (.encodeConfig cfg) s = .next (refusedWith .devNonpos s)) ∧
    (0 < rateOf cfg.scheme (cfg.baseRate * cfg.skew) → 0 < rateOf cfg.scheme (cfg.baseRate * cfg.skew) * cfg.modIndex →
      ∃ (fw iw mw : Nat) (d : DrdResult),
        exec (.freqWord cfg.freqHz) s = .next (answered (.word fw) s) ∧
        exec (.ifWord cfg.ifHz) s = .next (answered (.word iw) s) ∧
        exec (.modEnc cfg.scheme) s = .next (answered (.word mw) s) ∧
        exec (.drateDev cfg.baseRate cfg.skew cfg.modIndex cfg.scheme) s =
          .next (answered (.drd d) { s with diag := s.diag ++ noticesOf cfg.scheme (cfg.baseRate * cfg.skew) }) ∧
        exec (.encodeConfig cfg) s =
          .next (answered
            (.parms { freq := fw, ifw := iw, mod := mw, sync := s.params.syncMode, chanspc_m := 0, chanspc_e := 0,
                      chanbw_m := d.chanbw_m, chanbw_e := d.chanbw_e, drate_m := d.drate_m, drate_e := d.drate_e,
                      deviat_m := d.deviat_m, deviat_e := d.deviat_e,
                      fecwhite := (if cfg.whitening then 2 else 0) + (if cfg.fec then 1 else 0),
                      pktlen := cfg.pktLen % 256, pktmode := if cfg.varLen then 1 else 0, preamble := cfg.preambleSel % 8 })
            { s with diag := s.diag ++ noticesOf cfg.scheme (cfg.baseRate * cfg.skew) }))

/-- 44_config_encode.md R109, R114: every field ENCODE_CONFIG produces is inside its width, whatever the config. -/
def Obligations.EncodedConfigIsInsideItsWidths : Prop :=
  ∀ (cfg : RadioLinkConfig) (s t : State) (parms : RadioRegisterParms), s.params.Valid → exec (.encodeConfig cfg) s = .next t →
    t.hostLog = s.hostLog ++ [.answer (.result (.parms parms))] → parmsInWidth parms = true

/-- 44_config_encode.md R112 with the layout of 30_encoding.md R71: one byte a field, the frequency word in three big-endian bytes; a field outside its
width is refused. -/
def Obligations.ParmsSerLaysOutEighteenBytes : Prop :=
  ∀ (p : RadioRegisterParms) (s : State), s.pending = none →
    (parmsInWidth p = true →
      exec (.parmsSer p) s =
        .next (answered (.bytes
          ([p.freq / 2 ^ 16, p.freq / 2 ^ 8 % 256, p.freq % 256, p.ifw, p.mod, p.sync, p.chanspc_m, p.chanspc_e, p.chanbw_m,
            p.chanbw_e, p.drate_m, p.drate_e, p.deviat_m, p.deviat_e, p.fecwhite, p.pktlen, p.pktmode, p.preamble].map
            (BitVec.ofNat 8))) s)) ∧
    (parmsInWidth p = false → exec (.parmsSer p) s = .next (refusedWith .argRange s))

/-- 44_config_encode.md R113: 18 bytes decode field by field, bits above a field's width discarded; any other length is refused. The preamble
code's width, 3 bits, is PRESUMED: the spec gives it from general knowledge (93_implementation_defined.md G8; log 16). -/
def Obligations.ParmsDesDiscardsHighBits : Prop :=
  ∀ s : State, s.pending = none →
    (∀ b0 b1 b2 b3 b4 b5 b6 b7 b8 b9 b10 b11 b12 b13 b14 b15 b16 b17 : Byte,
      exec (.parmsDes [b0, b1, b2, b3, b4, b5, b6, b7, b8, b9, b10, b11, b12, b13, b14, b15, b16, b17]) s =
        .next (answered
          (.parms { freq := b0.toNat * 2 ^ 16 + b1.toNat * 2 ^ 8 + b2.toNat, ifw := b3.toNat % 32, mod := b4.toNat % 8,
                    sync := b5.toNat % 8, chanspc_m := b6.toNat, chanspc_e := b7.toNat % 4, chanbw_m := b8.toNat % 4,
                    chanbw_e := b9.toNat % 4, drate_m := b10.toNat, drate_e := b11.toNat % 16, deviat_m := b12.toNat % 8,
                    deviat_e := b13.toNat % 8, fecwhite := b14.toNat, pktlen := b15.toNat, pktmode := b16.toNat % 2,
                    preamble := b17.toNat % 8 }) s)) ∧
    (∀ l : List Byte, l.length ≠ 18 → exec (.parmsDes l) s = .next (refusedWith .argRange s))

/-- 44_config_encode.md R114: PARMS_DES of PARMS_SER gives every parms with its fields inside their widths back. -/
def Obligations.ParmsSerThenDesIsIdentity : Prop :=
  ∀ (p : RadioRegisterParms) (s : State), s.pending = none → parmsInWidth p = true →
    ∃ l, exec (.parmsSer p) s = .next (answered (.bytes l) s) ∧ exec (.parmsDes l) s = .next (answered (.parms p) s)

/-! ## Envelopes -/

/-- 45_envelope.md R117, R118: `[CMD_INIT, 18]` before what PARMS_SER returns, and `[CMD_STATUS_QUERY, 0]`. -/
def Obligations.EnvInitAndEnvStatusQueryBuildTheirEnvelopes : Prop :=
  ∀ s : State, s.pending = none →
    (∀ p, parmsInWidth p = true →
      ∃ pl, exec (.parmsSer p) s = .next (answered (.bytes pl) s) ∧ pl.length = 18 ∧
        exec (.envInit p) s = .next (answered (.bytes ([s.params.cmdInit, 18] ++ pl)) s)) ∧
    (∀ p, parmsInWidth p = false → exec (.envInit p) s = .next (refusedWith .argRange s)) ∧
    exec .envStatusQuery s = .next (answered (.bytes [s.params.cmdStatusQuery, 0]) s)

/-- 45_envelope.md R119: `[CMD_TX_BLOCK, n + 2, n, countdown] ++ block`; a countdown above 255, then a block above 253 bytes, is refused. -/
def Obligations.EnvTxBlockBuildsItsEnvelope : Prop :=
  ∀ (countdown : Nat) (block : List Byte) (s : State), s.pending = none →
    exec (.envTxBlock countdown block) s =
      if 255 < countdown then .next (refusedWith .argRange s)
      else if 253 < block.length then .next (refusedWith .blockTooLong s)
      else .next (answered (.bytes
        ([s.params.cmdTxBlock, BitVec.ofNat 8 (block.length + 2), BitVec.ofNat 8 block.length, BitVec.ofNat 8 countdown] ++ block)) s)

/-- 45_envelope.md R120: ENV_PARSE, for every byte sequence. -/
def Obligations.EnvParseIsTotal : Prop :=
  ∀ s : State, s.pending = none →
    (∀ l : List Byte, l.length < 2 →
      exec (.envParse l) s =
        .next (answered (.parsed { kind := .short, type := none, len := none, payload := [], complete := false, trailing := 0 }) s)) ∧
    (∀ (type len : Byte) (rest : List Byte), ∃ kind : EnvKind,
      (kind = if type = s.params.cmdInit then .init
        else if type = s.params.cmdStatusQuery then .statusQuery
        else if type = s.params.cmdTxBlock then .txBlock else .unknown) ∧
      exec (.envParse (type :: len :: rest)) s =
        if len.toNat ≤ rest.length then
          .next (answered (.parsed { kind := kind, type := some type, len := some len.toNat, payload := rest.take len.toNat,
                                     complete := true, trailing := rest.length - len.toNat }) s)
        else
          .next (answered (.parsed { kind := kind, type := some type, len := some len.toNat, payload := rest,
                                     complete := false, trailing := 0 }) s)) ∧
    (∀ (r : ParseResult), txBlockBody r =
      if r.kind = .txBlock ∧ r.complete = true then
        match r.payload with
        | size :: count :: block => some { blockSize := size, blockCountdown := count, blockBytes := block }
        | _ => none
      else none)

/-- 45_envelope.md R122, R123: every envelope the framer builds parses back complete, without trailing bytes, as the command that built it; the parms and
the block come back. -/
def Obligations.BuiltEnvelopesParseBack : Prop :=
  ∀ p : Params, p.Valid →
    (∀ parms, parmsInWidth parms = true →
      ∃ r, envParse p (envInit p parms) = r ∧ r.kind = .init ∧ r.len = some 18 ∧ r.complete = true ∧ r.trailing = 0 ∧
        parmsDes r.payload = some parms) ∧
    envParse p (envStatusQuery p) =
      { kind := .statusQuery, type := some p.cmdStatusQuery, len := some 0, payload := [], complete := true, trailing := 0 } ∧
    (∀ (c : Nat) (block : List Byte), c ≤ 255 → block.length ≤ 253 →
      ∃ r, envParse p (envTxBlock p c block) = r ∧ r.kind = .txBlock ∧ r.len = some (block.length + 2) ∧ r.complete = true ∧
        r.trailing = 0 ∧
        txBlockBody r = some { blockSize := BitVec.ofNat 8 block.length, blockCountdown := BitVec.ofNat 8 c, blockBytes := block })

/-- The wire commands decode as 45_envelope.md R120 and 44_config_encode.md R113 say of their envelopes, an INIT payload of 18 bytes to what PARMS_DES
answers for it; that this decode is the meaning of the three
ENVELOPE rows is the model's reading (log 5). -/
def Obligations.WireCommandsAnswerTheirDecode : Prop :=
  ∀ (pl : List Byte) (s : State), s.pending = none → s.params.Valid → pl.length ≤ 255 →
    (∃ body, exec (.cmdInit pl) s =
        .next (answered (.command { kind := .init, type := some s.params.cmdInit, len := some pl.length, payload := pl,
                                    complete := true, trailing := 0 } (.init body)) s) ∧
      (pl.length ≠ 18 → body = none) ∧
      (pl.length = 18 → ∃ parms, exec (.parmsDes pl) s = .next (answered (.parms parms) s) ∧ body = some parms) ∧
      ∀ parms, parmsInWidth parms = true → pl = parmsSer parms → body = some parms) ∧
    exec (.cmdStatusQuery pl) s =
      .next (answered (.command { kind := .statusQuery, type := some s.params.cmdStatusQuery, len := some pl.length, payload := pl,
                                  complete := true, trailing := 0 } .statusQuery) s) ∧
    exec (.cmdTxBlock pl) s =
      .next (answered (.command { kind := .txBlock, type := some s.params.cmdTxBlock, len := some pl.length, payload := pl,
                                  complete := true, trailing := 0 }
        (.txBlock (match pl with
          | size :: count :: block => some { blockSize := size, blockCountdown := count, blockBytes := block }
          | _ => none))) s)

/-! ## Status -/

/-- The pseudocode of 46_status_decode.md R125 with the layout of 30_encoding.md R75 to R81. The bit positions inside the crc+lqi, status-flags and
FIFO bytes and the two's complement reading of the frequency offset are PRESUMED: the spec gives them from general knowledge, not from the source
(R76, R78 to R81; log 16). -/
def Obligations.StatusDecodeReadsEveryField : Prop :=
  ∀ s : State, s.pending = none →
    (∀ b0 b1 b2 b3 b4 b5 b6 b7 b8 b9 b10 b11 : Byte, ∃ dbm : ℚ,
      exec (.rssiDbm b4.toNat) s = .next (answered (.rational dbm) s) ∧
      exec (.statusDecode [b0, b1, b2, b3, b4, b5, b6, b7, b8, b9, b10, b11]) s =
        .next (answered
          (.status { partNum := b0, version := b1, freqOffRaw := b2, freqOff := b2.toInt,
                     crcOk := b3.getLsbD 7, lqi := b3.toNat % 128, rssiRaw := b4, rssiDbm := dbm, fsmState := b5.toNat % 32,
                     worTimer := b6.toNat * 256 + b7.toNat, flagsRaw := b8, cs := b8.getLsbD 6, pqt := b8.getLsbD 5,
                     cca := b8.getLsbD 4, sfd := b8.getLsbD 3, gdo2 := b8.getLsbD 2, gdo0 := b8.getLsbD 0, vcoDac := b9,
                     txUnderflow := b10.getLsbD 7, txCount := b10.toNat % 128, rxOverflow := b11.getLsbD 7,
                     rxCount := b11.toNat % 128 }) s)) ∧
    (∀ l : List Byte, l.length ≠ 12 → exec (.statusDecode l) s = .next (refusedWith .argRange s))

/-- 46_status_decode.md R133: two payloads decode to the same record exactly when they differ at most in bits 7:5 of the fsm-state byte. That
the fields split from the crc+lqi and FIFO bytes cover all their bits rests on the PRESUMED layout of log 16. -/
def Obligations.StatusDecodeLosesOnlyThreeBits : Prop :=
  ∀ l1 l2 : List Byte, l1.length = 12 → l2.length = 12 →
    (statusDecode l1 = statusDecode l2 ↔
      (∀ k, k < 12 → k ≠ 5 → l1[k]? = l2[k]?) ∧
      ∀ b1 b2 : Byte, l1[5]? = some b1 → l2[5]? = some b2 → b1.toNat % 32 = b2.toNat % 32)

/-- 46_status_decode.md R127: the dBm of every byte; a value above 255 is refused. -/
def Obligations.RssiDbmIsTheHalfDbFormula : Prop :=
  ∀ (r : Nat) (s : State), s.pending = none →
    exec (.rssiDbm r) s =
      if r ≤ 127 then .next (answered (.rational ((r : ℚ) / 2 - 74)) s)
      else if r ≤ 255 then .next (answered (.rational (((r : ℚ) - 256) / 2 - 74)) s)
      else .next (refusedWith .argRange s)

/-- 46_status_decode.md R128, R129: twice the dBm is `r - 148` or `r - 404`; the conversion is one-to-one on bytes, from -138 to -10.5. -/
def Obligations.RssiDbmIsInjectiveOnBytes : Prop :=
  (∀ r, r ≤ 127 → 2 * rssiDbm r = (r : ℚ) - 148) ∧
  (∀ r, 128 ≤ r → r ≤ 255 → 2 * rssiDbm r = (r : ℚ) - 404) ∧
  (∀ r1 r2, r1 ≤ 255 → r2 ≤ 255 → rssiDbm r1 = rssiDbm r2 → r1 = r2) ∧
  (∀ r, r ≤ 255 → -138 ≤ rssiDbm r ∧ rssiDbm r ≤ -21 / 2)

/-- 46_status_decode.md R130, 10_state.md R33: codes 23 to 31 are "undefined", codes 0 to 22 the table's; a code above 31 is refused. -/
def Obligations.FsmNameReadsTheTable : Prop :=
  ∀ (code : Nat) (s : State), s.pending = none → s.params.Valid →
    (code ≤ 22 → ∃ name, s.params.fsmNames[code]? = some name ∧ exec (.fsmName code) s = .next (answered (.text name) s)) ∧
    (23 ≤ code → code ≤ 31 → exec (.fsmName code) s = .next (answered (.text "undefined") s)) ∧
    (31 < code → exec (.fsmName code) s = .next (refusedWith .argRange s))

/-! ## Transactions -/

/-- 47_transactions.md R134, R143 (1): READ_WITH_TIMEOUT starts a poll without a write; a budget of 0 is refused. -/
def Obligations.ReadWithTimeoutStartsAPoll : Prop :=
  ∀ (k : Nat) (s : State), s.pending = none →
    exec (.readWithTimeout k) s =
      if k = 0 then .next (refusedWith .attemptsZero s)
      else .next { s with seq := .polling, attemptsLeft := k, pending := some .readWithTimeout }

/-- 47_transactions.md R137: SEND_INIT writes the INIT envelope of the encoded config and starts a poll of `INIT_ATTEMPTS`; its refusals are
ENCODE_CONFIG's, raised before any write. -/
def Obligations.SendInitWritesTheInitEnvelope : Prop :=
  ∀ (cfg : RadioLinkConfig) (s : State), s.pending = none → s.params.Valid →
    (rateOf cfg.scheme (cfg.baseRate * cfg.skew) ≤ 0 → exec (.sendInit cfg) s = .next (refusedWith .rateNonpos s)) ∧
    (0 < rateOf cfg.scheme (cfg.baseRate * cfg.skew) → rateOf cfg.scheme (cfg.baseRate * cfg.skew) * cfg.modIndex ≤ 0 →
      exec (.sendInit cfg) s = .next (refusedWith .devNonpos s)) ∧
    (0 < rateOf cfg.scheme (cfg.baseRate * cfg.skew) → 0 < rateOf cfg.scheme (cfg.baseRate * cfg.skew) * cfg.modIndex →
      ∃ (parms : RadioRegisterParms) (env : List Byte) (t : State),
        exec (.encodeConfig cfg) s =
          .next (answered (.parms parms) { s with diag := s.diag ++ noticesOf cfg.scheme (cfg.baseRate * cfg.skew) }) ∧
        exec (.envInit parms) s = .next (answered (.bytes env) s) ∧ env.length = 20 ∧
        exec (.sendInit cfg) s = .next t ∧
        TransactionBegins s t .sendInit env s.params.initAttempts (noticesOf cfg.scheme (cfg.baseRate * cfg.skew)))

/-- 47_transactions.md R140: QUERY_STATUS writes `[CMD_STATUS_QUERY, 0]` and starts a poll of `STATUS_ATTEMPTS`. -/
def Obligations.QueryStatusWritesTheQueryEnvelope : Prop :=
  ∀ s : State, s.pending = none → s.params.Valid →
    ∃ t, exec .queryStatus s = .next t ∧
      TransactionBegins s t .queryStatus [s.params.cmdStatusQuery, 0] s.params.statusAttempts []

/-- 47_transactions.md R144: SEND_BLOCK writes the TX_BLOCK envelope and starts a poll of the caller's budget; its refusals, in order. -/
def Obligations.SendBlockWritesTheBlockEnvelope : Prop :=
  ∀ (c : Nat) (block : List Byte) (k : Nat) (s : State), s.pending = none →
    (255 < c → exec (.sendBlock c block k) s = .next (refusedWith .argRange s)) ∧
    (c ≤ 255 → 253 < block.length → exec (.sendBlock c block k) s = .next (refusedWith .blockTooLong s)) ∧
    (c ≤ 255 → block.length ≤ 253 → s.params.scratchCapacity < 4 + block.length →
      exec (.sendBlock c block k) s = .next (refusedWith .envOverCapacity s)) ∧
    (c ≤ 255 → block.length ≤ 253 → 4 + block.length ≤ s.params.scratchCapacity → k = 0 →
      exec (.sendBlock c block k) s = .next (refusedWith .attemptsZero s)) ∧
    (c ≤ 255 → block.length ≤ 253 → 4 + block.length ≤ s.params.scratchCapacity → k ≠ 0 →
      ∃ t, exec (.sendBlock c block k) s = .next t ∧
        TransactionBegins s t .sendBlock
          ([s.params.cmdTxBlock, BitVec.ofNat 8 (block.length + 2), BitVec.ofNat 8 block.length, BitVec.ofNat 8 c] ++ block) k [])

/-- 47_transactions.md R134, R143 (3), 20_memory.md R45, R49, R51, R58: an attempt whose read has a positive count ends the poll: whether a script or a
free draw answers, at most 14 of the bytes at hand land at `SCRATCH[0 ..]`, every other byte is as before, the rest stays in the stream, and the
transaction's result is returned. That `LAST_COUNT` and `ATTEMPTS_LEFT` keep their values in IDLE is the model's choice (log 8). -/
def Obligations.PositiveReadEndsTheTransaction : Prop :=
  ∀ (s : State) (p : Pending) (bytes : List Byte) (rest : List ReadAnswer) (draws : Nat), s.params.Valid → s.pending = some p →
    NextAnswer s (.data bytes) rest draws → bytes ≠ [] →
    ∃ (mem : Memory) (v : Result),
      ReadAnswer.count 14 (nextReadAnswer s) = ((bytes.take 14).length : Int) ∧
      ReadAnswer.delivered 14 (nextReadAnswer s) = bytes.take 14 ∧
      (∀ k (h : k < (bytes.take 14).length), Memory.byteAt mem k = (bytes.take 14)[k]) ∧
      (∀ a, (bytes.take 14).length ≤ a → Memory.byteAt mem a = Memory.byteAt s.scratch a) ∧
      ResultOf p ((bytes.take 14).length : Int) mem v ∧
      attemptStep s =
        .next { s with
          scratch := mem
          lastCount := ((bytes.take 14).length : Int)
          readScript := if bytes.length ≤ 14 then rest else .data (bytes.drop 14) :: rest
          draws := draws
          linkLog := s.linkLog ++ [.read 14 ((bytes.take 14).length : Int) (bytes.take 14)]
          seq := .idle
          pending := none
          hostLog := s.hostLog ++ [.answer (.result v)] }

/-- 47_transactions.md R134, R138, R146: an attempt whose read has a count `n ≤ 0`, whether a script or a free draw answers, delivers nothing, sleeps and
uses up an attempt; with attempts left the poll goes on, and with none left the transaction returns its failure, the count being the read's
own. That `LAST_COUNT` and `ATTEMPTS_LEFT` keep their values in IDLE is the model's choice (log 8). -/
def Obligations.EmptyReadUsesUpAnAttempt : Prop :=
  ∀ (s : State) (p : Pending) (ans : ReadAnswer) (n : Int) (rest : List ReadAnswer) (draws : Nat), s.params.Valid → s.pending = some p →
    NextAnswer s ans rest draws → ReadAnswer.count 14 ans = n → n ≤ 0 →
    (∀ k : Nat, ans = .noData k → n = -(k : Int)) ∧
    (∀ bytes : List Byte, ans = .data bytes → bytes = [] ∧ n = 0) ∧
    (2 ≤ s.attemptsLeft →
      attemptStep s =
        .next { s with
          lastCount := n
          readScript := rest
          draws := draws
          linkLog := s.linkLog ++ [.read 14 n []]
          sleeps := s.sleeps + 1
          attemptsLeft := s.attemptsLeft - 1 }) ∧
    (s.attemptsLeft = 1 →
      ∃ v, ResultOf p n s.scratch v ∧
        attemptStep s =
          .next { s with
            lastCount := n
            readScript := rest
            draws := draws
            linkLog := s.linkLog ++ [.read 14 n []]
            sleeps := s.sleeps + 1
            attemptsLeft := 0
            seq := .idle
            pending := none
            hostLog := s.hostLog ++ [.answer (.result v)] })

/-- 20_memory.md R49, 47_transactions.md R134, 60_exceptions.md R160: whatever the link answers, an attempt makes exactly one read of at most 14 bytes, whose count is
at most 14 and is the number of bytes delivered when positive, and records it in `LAST_COUNT`, which keeps it in IDLE by the model's choice (log 8). -/
def Obligations.AttemptMakesOneBoundedRead : Prop :=
  ∀ s t : State, attemptStep s = .next t →
    ∃ (r : Int) (d : List Byte), t.linkLog = s.linkLog ++ [.read 14 r d] ∧ r ≤ 14 ∧ t.lastCount = r ∧
      (0 < r → (d.length : Int) = r) ∧ (r ≤ 0 → d = [])

/-- 20_memory.md R45: whatever the link answers, a read of `n` bytes writes only `SCRATCH[0 .. n-1]`, and only when `n > 0`; every other byte is as before. -/
def Obligations.ReadWritesOnlyTheDeliveredBytes : Prop :=
  ∀ s t : State, attemptStep s = .next t → ∀ (n : Int) (d : List Byte), t.linkLog = s.linkLog ++ [.read 14 n d] →
    ∀ a : Nat, n ≤ (a : Int) → Memory.byteAt t.scratch a = Memory.byteAt s.scratch a

/-- 46_status_decode.md R126, 70_reset_and_hazards.md R175: a status reply of 12 bytes is a success whose FIFO fields come from the stale bytes at addresses 12
and 13. The places of the flag and the count in a FIFO byte are PRESUMED (30_encoding.md R79, R80; log 16). -/
def Obligations.TwelveByteStatusReplyUsesStaleBytes : Prop :=
  ∀ (s : State) (bytes : List Byte), s.params.Valid → s.pending = some (.queryStatus 2 2) →
    nextReadAnswer s = .data bytes → bytes.length = 12 →
    ∃ (st : StatusRecord) (t : State), attemptStep s = .next t ∧ t.hostLog = s.hostLog ++ [.answer (.result (.ok st))] ∧
      bytes[4]? = some st.freqOffRaw ∧ bytes[11]? = some st.vcoDac ∧
      st.txUnderflow = (Memory.byteAt s.scratch 12).getLsbD 7 ∧ st.txCount = (Memory.byteAt s.scratch 12).toNat % 128 ∧
      st.rxOverflow = (Memory.byteAt s.scratch 13).getLsbD 7 ∧ st.rxCount = (Memory.byteAt s.scratch 13).toNat % 128

/-- 47_transactions.md R135, R136: a poll makes as many reads as it needs and no more. With `k` empty reads it makes exactly `k`, returns the last count and has
slept `k` times; with a positive read after `j < k` empty ones it makes exactly `j + 1`, returns that count and has slept `j` times. -/
def Obligations.PollMakesExactlyItsReads : Prop :=
  ∀ (s : State) (k : Nat) (ns : List Nat) (rest : List ReadAnswer), s.params.Valid → s.seq = .idle → s.pending = none → s.inbox = [] →
    (ns.length = k → ∀ last, ns.getLast? = some last → s.readScript = ns.map .noData ++ rest →
      ∃ t u : State, exec (.readWithTimeout k) s = .next t ∧
        (∀ j, j < k → ∃ v : State, Host.Core.run Sys2Proof.core j t = .next v ∧ v.seq = .polling) ∧
        Host.Core.run Sys2Proof.core k t = .next u ∧ u.seq = .idle ∧ u.pending = none ∧ u.scratch = s.scratch ∧
        u.linkLog = s.linkLog ++ ns.map (fun n => .read 14 (-(n : Int)) []) ∧
        u.hostLog = s.hostLog ++ [.answer (.result (.count (-(last : Int))))] ∧ u.sleeps = s.sleeps + k) ∧
    (ns.length < k → ∀ bytes : List Byte, bytes ≠ [] → bytes.length ≤ 14 → s.readScript = ns.map .noData ++ .data bytes :: rest →
      ∃ t u : State, exec (.readWithTimeout k) s = .next t ∧
        (∀ j, j ≤ ns.length → ∃ v : State, Host.Core.run Sys2Proof.core j t = .next v ∧ v.seq = .polling) ∧
        Host.Core.run Sys2Proof.core (ns.length + 1) t = .next u ∧ u.seq = .idle ∧ u.pending = none ∧
        u.linkLog = s.linkLog ++ ns.map (fun n => .read 14 (-(n : Int)) []) ++ [.read 14 (bytes.length : Int) bytes] ∧
        u.hostLog = s.hostLog ++ [.answer (.result (.count (bytes.length : Int)))] ∧ u.sleeps = s.sleeps + ns.length)

/-- 47_transactions.md R148: SET_XTAL changes `XTAL` and nothing else; 0 Hz is refused. -/
def Obligations.SetXtalChangesOnlyXtal : Prop :=
  ∀ (hz : Nat) (s : State), s.pending = none →
    exec (.setXtal hz) s =
      if hz = 0 then .next (refusedWith .xtalZero s) else .next (answered .ack { s with xtal := hz })

/-! ## Whole-machine rules -/

/-- 10_state.md R20, 00_scope.md R6: no step changes the parameters, no attempt changes `XTAL`, and the only instruction that changes `XTAL` is SET_XTAL, to its
argument. -/
def Obligations.OnlySetXtalWritesXtal : Prop :=
  (∀ s t : State, step s = .next t → t.params = s.params) ∧
  (∀ s t : State, attemptStep s = .next t → t.xtal = s.xtal) ∧
  (∀ (i : Instr) (s t : State), exec i s = .next t → t.xtal ≠ s.xtal → i = .setXtal t.xtal ∧ t.xtal ≠ 0)

/-- 20_memory.md R36, R38: an operation that starts no poll touches neither `SCRATCH` nor the stream nor the sequencer: of the whole state only `XTAL`, `DIAG`,
`REFUSED` and the host's log can differ. That `ATTEMPTS_LEFT` and `LAST_COUNT` keep their values in IDLE is the model's choice (log 8). -/
def Obligations.PureOperationsLeaveBufferAndStreamAlone : Prop :=
  ∀ (i : Instr) (s t : State), startsPoll i = false → exec i s = .next t →
    t = { s with xtal := t.xtal, diag := t.diag, refused := t.refused, hostLog := t.hostLog }

/-- 10_state.md R24, 60_exceptions.md R155: `DIAG` only grows, and each notice added carries a rate above 300,000; only an instruction that can clamp adds one. -/
def Obligations.DiagOnlyGrowsByClampNotices : Prop :=
  (∀ s t : State, step s = .next t → ∃ l, t.diag = s.diag ++ l ∧ l.length ≤ 1 ∧ ∀ r0, Notice.fourFskClamp r0 ∈ l → 300000 < r0) ∧
  (∀ (i : Instr) (s t : State), exec i s = .next t → t.diag ≠ s.diag →
    (∃ baseRate skew modIndex, i = .drateDev baseRate skew modIndex .fsk4) ∨
    (∃ cfg : RadioLinkConfig, cfg.scheme = .fsk4 ∧ (i = .encodeConfig cfg ∨ i = .sendInit cfg)))
end

