-- ==== Sys2Proof/Laws/Arith.lean ====
section
/-! SUPPORT. The number primitives say what spec 00_scope.md R8 to R12 says of them, in the library's own terms. -/

namespace Sys2Proof.Machine

theorem pow2_eq_zpow (k : Int) : pow2 k = (2 : ℚ) ^ k := by
  cases k with
  | ofNat k => simp [pow2]
  | negSucc k => simp [pow2, zpow_negSucc]

theorem pow2_pos (k : Int) : 0 < pow2 k := by
  rw [pow2_eq_zpow]; positivity

theorem floorQ_eq_floor (x : ℚ) : floorQ x = ⌊x⌋ := rfl

/-- R9 for a non-negative argument, the only ones the block rounds. -/
theorem roundQ_of_nonneg {x : ℚ} (h : 0 ≤ x) : roundQ x = ⌊x + 1 / 2⌋ := by
  rw [roundQ, if_pos h, floorQ_eq_floor]

theorem mask_lt (w : Nat) (v : Int) : mask w v < 2 ^ w := by
  have h : (0 : Int) < ((2 ^ w : Nat) : Int) := by positivity
  have h1 := Int.emod_nonneg v (ne_of_gt h)
  have h2 := Int.emod_lt_of_pos v h
  unfold mask
  omega

/-- R11: `mask_w(v)` is congruent to `v` modulo `2^w`. -/
theorem mask_cast (w : Nat) (v : Int) : (mask w v : Int) = v % ((2 ^ w : Nat) : Int) := by
  have h : (0 : Int) < ((2 ^ w : Nat) : Int) := by positivity
  exact Int.toNat_of_nonneg (Int.emod_nonneg v (ne_of_gt h))

@[simp] theorem mask_natCast (w v : Nat) : mask w (v : Int) = v % 2 ^ w := by
  have := mask_cast w (v : Int)
  exact_mod_cast this

/-- A value inside its width is not changed by the mask. -/
theorem mask_of_inside {w : Nat} {v : Int} (h0 : 0 ≤ v) (h1 : v < ((2 ^ w : Nat) : Int)) : (mask w v : Int) = v := by
  rw [mask_cast, Int.emod_eq_of_lt h0 h1]

theorem log2_bounds {n : Nat} (h : n ≠ 0) : (2 : ℚ) ^ (Nat.log2 n) ≤ n ∧ (n : ℚ) < 2 ^ (Nat.log2 n + 1) := by
  have h1 : 2 ^ Nat.log2 n ≤ n := Nat.log2_self_le h
  have h2 : n < 2 ^ (Nat.log2 n + 1) := Nat.lt_log2_self
  exact ⟨by exact_mod_cast h1, by exact_mod_cast h2⟩

/-- R10: `2^k ≤ x < 2^(k+1)` for `k = flog2 x`. -/
theorem flog2_bounds {x : ℚ} (hx : 0 < x) : (2 : ℚ) ^ flog2 x ≤ x ∧ x < (2 : ℚ) ^ (flog2 x + 1) := by
  have hn : x.num.natAbs ≠ 0 := Int.natAbs_ne_zero.2 (ne_of_gt (Rat.num_pos.2 hx))
  have hd : x.den ≠ 0 := x.den_nz
  obtain ⟨n1, n2⟩ := log2_bounds hn
  obtain ⟨d1, d2⟩ := log2_bounds hd
  have hdpos : (0 : ℚ) < x.den := by exact_mod_cast x.pos
  have hxe : x = (x.num.natAbs : ℚ) / x.den := by
    have h1 : ((x.num.natAbs : ℕ) : ℚ) = (x.num : ℚ) := by
      rw [← Int.cast_natCast, Int.natAbs_of_nonneg (le_of_lt (Rat.num_pos.2 hx))]
    rw [h1, Rat.num_div_den]
  set a := Nat.log2 x.num.natAbs
  set b := Nat.log2 x.den
  have hlow : (2 : ℚ) ^ ((a : Int) - b - 1) ≤ x := by
    rw [show (a : Int) - b - 1 = (a : Int) - (b + 1 : Nat) by push_cast; ring, zpow_sub₀ two_ne_zero, zpow_natCast, zpow_natCast]
    rw [hxe, div_le_div_iff₀ (by positivity) hdpos]
    exact mul_le_mul n1 (le_of_lt d2) (le_of_lt hdpos) (by positivity)
  have hhigh : x < (2 : ℚ) ^ ((a : Int) - b + 1) := by
    rw [show (a : Int) - b + 1 = ((a + 1 : Nat) : Int) - (b : Nat) by push_cast; ring, zpow_sub₀ two_ne_zero, zpow_natCast, zpow_natCast]
    rw [hxe, div_lt_div_iff₀ hdpos (by positivity)]
    exact mul_lt_mul n2 d1 (by positivity) (by positivity)
  unfold flog2
  simp only [pow2_eq_zpow]
  split
  next h => exact ⟨h, hhigh⟩
  next h =>
    refine ⟨hlow, ?_⟩
    rw [show ((a : Int) - b) - 1 + 1 = (a : Int) - b by ring]
    exact not_le.1 h

/-- R10: the integer with those bounds is unique. -/
theorem flog2_unique {x : ℚ} {k : Int} (h1 : (2 : ℚ) ^ k ≤ x) (h2 : x < (2 : ℚ) ^ (k + 1)) : flog2 x = k := by
  have hx : 0 < x := lt_of_lt_of_le (by positivity) h1
  obtain ⟨g1, g2⟩ := flog2_bounds hx
  have a1 := (zpow_lt_zpow_iff_right₀ (one_lt_two (α := ℚ))).1 (lt_of_le_of_lt h1 g2)
  have a2 := (zpow_lt_zpow_iff_right₀ (one_lt_two (α := ℚ))).1 (lt_of_le_of_lt g1 h2)
  omega

end Sys2Proof.Machine
end

