-- ==== Sys2Proof/Laws/State.lean ====
section
/-! SUPPORT. What each shared operation does to each field of the state, one lemma per field, so that no proof unfolds a record update. -/

namespace Sys2Proof.Machine

/-! ## `respond` -/

@[simp] theorem respond_xtal (v : Result) (s : State) : (respond v s).xtal = s.xtal := rfl
@[simp] theorem respond_seq (v : Result) (s : State) : (respond v s).seq = s.seq := rfl
@[simp] theorem respond_attemptsLeft (v : Result) (s : State) : (respond v s).attemptsLeft = s.attemptsLeft := rfl
@[simp] theorem respond_lastCount (v : Result) (s : State) : (respond v s).lastCount = s.lastCount := rfl
@[simp] theorem respond_pending (v : Result) (s : State) : (respond v s).pending = s.pending := rfl
@[simp] theorem respond_scratch (v : Result) (s : State) : (respond v s).scratch = s.scratch := rfl
@[simp] theorem respond_diag (v : Result) (s : State) : (respond v s).diag = s.diag := rfl
@[simp] theorem respond_refused (v : Result) (s : State) : (respond v s).refused = s.refused := rfl
@[simp] theorem respond_params (v : Result) (s : State) : (respond v s).params = s.params := rfl
@[simp] theorem respond_inbox (v : Result) (s : State) : (respond v s).inbox = s.inbox := rfl
@[simp] theorem respond_hostLog (v : Result) (s : State) : (respond v s).hostLog = s.hostLog ++ [.answer (.result v)] := rfl
@[simp] theorem respond_writeScript (v : Result) (s : State) : (respond v s).writeScript = s.writeScript := rfl
@[simp] theorem respond_readScript (v : Result) (s : State) : (respond v s).readScript = s.readScript := rfl
@[simp] theorem respond_linkLog (v : Result) (s : State) : (respond v s).linkLog = s.linkLog := rfl
@[simp] theorem respond_draws (v : Result) (s : State) : (respond v s).draws = s.draws := rfl
@[simp] theorem respond_sleeps (v : Result) (s : State) : (respond v s).sleeps = s.sleeps := rfl

/-! ## `emit` -/

@[simp] theorem emit_xtal (notices : List Notice) (s : State) : (emit notices s).xtal = s.xtal := rfl
@[simp] theorem emit_seq (notices : List Notice) (s : State) : (emit notices s).seq = s.seq := rfl
@[simp] theorem emit_attemptsLeft (notices : List Notice) (s : State) : (emit notices s).attemptsLeft = s.attemptsLeft := rfl
@[simp] theorem emit_lastCount (notices : List Notice) (s : State) : (emit notices s).lastCount = s.lastCount := rfl
@[simp] theorem emit_pending (notices : List Notice) (s : State) : (emit notices s).pending = s.pending := rfl
@[simp] theorem emit_scratch (notices : List Notice) (s : State) : (emit notices s).scratch = s.scratch := rfl
@[simp] theorem emit_diag (notices : List Notice) (s : State) : (emit notices s).diag = s.diag ++ notices := rfl
@[simp] theorem emit_refused (notices : List Notice) (s : State) : (emit notices s).refused = s.refused := rfl
@[simp] theorem emit_params (notices : List Notice) (s : State) : (emit notices s).params = s.params := rfl
@[simp] theorem emit_inbox (notices : List Notice) (s : State) : (emit notices s).inbox = s.inbox := rfl
@[simp] theorem emit_hostLog (notices : List Notice) (s : State) : (emit notices s).hostLog = s.hostLog := rfl
@[simp] theorem emit_writeScript (notices : List Notice) (s : State) : (emit notices s).writeScript = s.writeScript := rfl
@[simp] theorem emit_readScript (notices : List Notice) (s : State) : (emit notices s).readScript = s.readScript := rfl
@[simp] theorem emit_linkLog (notices : List Notice) (s : State) : (emit notices s).linkLog = s.linkLog := rfl
@[simp] theorem emit_draws (notices : List Notice) (s : State) : (emit notices s).draws = s.draws := rfl
@[simp] theorem emit_sleeps (notices : List Notice) (s : State) : (emit notices s).sleeps = s.sleeps := rfl

/-! ## `refuse` -/

@[simp] theorem refuse_xtal (reason : RefReason) (s : State) : (refuse reason s).xtal = s.xtal := rfl
@[simp] theorem refuse_seq (reason : RefReason) (s : State) : (refuse reason s).seq = s.seq := rfl
@[simp] theorem refuse_attemptsLeft (reason : RefReason) (s : State) : (refuse reason s).attemptsLeft = s.attemptsLeft := rfl
@[simp] theorem refuse_lastCount (reason : RefReason) (s : State) : (refuse reason s).lastCount = s.lastCount := rfl
@[simp] theorem refuse_pending (reason : RefReason) (s : State) : (refuse reason s).pending = s.pending := rfl
@[simp] theorem refuse_scratch (reason : RefReason) (s : State) : (refuse reason s).scratch = s.scratch := rfl
@[simp] theorem refuse_diag (reason : RefReason) (s : State) : (refuse reason s).diag = s.diag := rfl
@[simp] theorem refuse_refused (reason : RefReason) (s : State) : (refuse reason s).refused = true := rfl
@[simp] theorem refuse_params (reason : RefReason) (s : State) : (refuse reason s).params = s.params := rfl
@[simp] theorem refuse_inbox (reason : RefReason) (s : State) : (refuse reason s).inbox = s.inbox := rfl
@[simp] theorem refuse_hostLog (reason : RefReason) (s : State) : (refuse reason s).hostLog = s.hostLog ++ [.answer (.refused reason)] := rfl
@[simp] theorem refuse_writeScript (reason : RefReason) (s : State) : (refuse reason s).writeScript = s.writeScript := rfl
@[simp] theorem refuse_readScript (reason : RefReason) (s : State) : (refuse reason s).readScript = s.readScript := rfl
@[simp] theorem refuse_linkLog (reason : RefReason) (s : State) : (refuse reason s).linkLog = s.linkLog := rfl
@[simp] theorem refuse_draws (reason : RefReason) (s : State) : (refuse reason s).draws = s.draws := rfl
@[simp] theorem refuse_sleeps (reason : RefReason) (s : State) : (refuse reason s).sleeps = s.sleeps := rfl

/-! ## `sleep` -/

@[simp] theorem sleep_xtal (s : State) : (sleep s).xtal = s.xtal := rfl
@[simp] theorem sleep_seq (s : State) : (sleep s).seq = s.seq := rfl
@[simp] theorem sleep_attemptsLeft (s : State) : (sleep s).attemptsLeft = s.attemptsLeft := rfl
@[simp] theorem sleep_lastCount (s : State) : (sleep s).lastCount = s.lastCount := rfl
@[simp] theorem sleep_pending (s : State) : (sleep s).pending = s.pending := rfl
@[simp] theorem sleep_scratch (s : State) : (sleep s).scratch = s.scratch := rfl
@[simp] theorem sleep_diag (s : State) : (sleep s).diag = s.diag := rfl
@[simp] theorem sleep_refused (s : State) : (sleep s).refused = s.refused := rfl
@[simp] theorem sleep_params (s : State) : (sleep s).params = s.params := rfl
@[simp] theorem sleep_inbox (s : State) : (sleep s).inbox = s.inbox := rfl
@[simp] theorem sleep_hostLog (s : State) : (sleep s).hostLog = s.hostLog := rfl
@[simp] theorem sleep_writeScript (s : State) : (sleep s).writeScript = s.writeScript := rfl
@[simp] theorem sleep_readScript (s : State) : (sleep s).readScript = s.readScript := rfl
@[simp] theorem sleep_linkLog (s : State) : (sleep s).linkLog = s.linkLog := rfl
@[simp] theorem sleep_draws (s : State) : (sleep s).draws = s.draws := rfl
@[simp] theorem sleep_sleeps (s : State) : (sleep s).sleeps = s.sleeps + 1 := rfl

/-! ## `beginPoll` -/

@[simp] theorem beginPoll_xtal (p : Pending) (budget : Nat) (s : State) : (beginPoll p budget s).xtal = s.xtal := rfl
@[simp] theorem beginPoll_seq (p : Pending) (budget : Nat) (s : State) : (beginPoll p budget s).seq = .polling := rfl
@[simp] theorem beginPoll_attemptsLeft (p : Pending) (budget : Nat) (s : State) : (beginPoll p budget s).attemptsLeft = budget := rfl
@[simp] theorem beginPoll_lastCount (p : Pending) (budget : Nat) (s : State) : (beginPoll p budget s).lastCount = s.lastCount := rfl
@[simp] theorem beginPoll_pending (p : Pending) (budget : Nat) (s : State) : (beginPoll p budget s).pending = some p := rfl
@[simp] theorem beginPoll_scratch (p : Pending) (budget : Nat) (s : State) : (beginPoll p budget s).scratch = s.scratch := rfl
@[simp] theorem beginPoll_diag (p : Pending) (budget : Nat) (s : State) : (beginPoll p budget s).diag = s.diag := rfl
@[simp] theorem beginPoll_refused (p : Pending) (budget : Nat) (s : State) : (beginPoll p budget s).refused = s.refused := rfl
@[simp] theorem beginPoll_params (p : Pending) (budget : Nat) (s : State) : (beginPoll p budget s).params = s.params := rfl
@[simp] theorem beginPoll_inbox (p : Pending) (budget : Nat) (s : State) : (beginPoll p budget s).inbox = s.inbox := rfl
@[simp] theorem beginPoll_hostLog (p : Pending) (budget : Nat) (s : State) : (beginPoll p budget s).hostLog = s.hostLog := rfl
@[simp] theorem beginPoll_writeScript (p : Pending) (budget : Nat) (s : State) : (beginPoll p budget s).writeScript = s.writeScript := rfl
@[simp] theorem beginPoll_readScript (p : Pending) (budget : Nat) (s : State) : (beginPoll p budget s).readScript = s.readScript := rfl
@[simp] theorem beginPoll_linkLog (p : Pending) (budget : Nat) (s : State) : (beginPoll p budget s).linkLog = s.linkLog := rfl
@[simp] theorem beginPoll_draws (p : Pending) (budget : Nat) (s : State) : (beginPoll p budget s).draws = s.draws := rfl
@[simp] theorem beginPoll_sleeps (p : Pending) (budget : Nat) (s : State) : (beginPoll p budget s).sleeps = s.sleeps := rfl

/-! ## `streamWrite` -/

@[simp] theorem streamWrite_xtal (bytes : List Byte) (s : State) : ((streamWrite bytes s).2).xtal = s.xtal := rfl
@[simp] theorem streamWrite_seq (bytes : List Byte) (s : State) : ((streamWrite bytes s).2).seq = s.seq := rfl
@[simp] theorem streamWrite_attemptsLeft (bytes : List Byte) (s : State) : ((streamWrite bytes s).2).attemptsLeft = s.attemptsLeft := rfl
@[simp] theorem streamWrite_lastCount (bytes : List Byte) (s : State) : ((streamWrite bytes s).2).lastCount = s.lastCount := rfl
@[simp] theorem streamWrite_pending (bytes : List Byte) (s : State) : ((streamWrite bytes s).2).pending = s.pending := rfl
@[simp] theorem streamWrite_scratch (bytes : List Byte) (s : State) : ((streamWrite bytes s).2).scratch = s.scratch := rfl
@[simp] theorem streamWrite_diag (bytes : List Byte) (s : State) : ((streamWrite bytes s).2).diag = s.diag := rfl
@[simp] theorem streamWrite_refused (bytes : List Byte) (s : State) : ((streamWrite bytes s).2).refused = s.refused := rfl
@[simp] theorem streamWrite_params (bytes : List Byte) (s : State) : ((streamWrite bytes s).2).params = s.params := rfl
@[simp] theorem streamWrite_inbox (bytes : List Byte) (s : State) : ((streamWrite bytes s).2).inbox = s.inbox := rfl
@[simp] theorem streamWrite_hostLog (bytes : List Byte) (s : State) : ((streamWrite bytes s).2).hostLog = s.hostLog := rfl
@[simp] theorem streamWrite_writeScript (bytes : List Byte) (s : State) : ((streamWrite bytes s).2).writeScript = s.writeScript.tail := rfl
@[simp] theorem streamWrite_readScript (bytes : List Byte) (s : State) : ((streamWrite bytes s).2).readScript = s.readScript := rfl
@[simp] theorem streamWrite_linkLog (bytes : List Byte) (s : State) : ((streamWrite bytes s).2).linkLog = s.linkLog ++ [.write bytes (nextWriteCount bytes.length s)] := rfl
@[simp] theorem streamWrite_draws (bytes : List Byte) (s : State) : ((streamWrite bytes s).2).draws = if s.writeScript.isEmpty then s.draws + 1 else s.draws := rfl
@[simp] theorem streamWrite_sleeps (bytes : List Byte) (s : State) : ((streamWrite bytes s).2).sleeps = s.sleeps := rfl
@[simp] theorem streamWrite_count (bytes : List Byte) (s : State) : (streamWrite bytes s).1 = nextWriteCount bytes.length s := rfl

/-! ## `readCall` -/

@[simp] theorem readCall_xtal (max : Nat) (s : State) : (readCall max s).xtal = s.xtal := rfl
@[simp] theorem readCall_seq (max : Nat) (s : State) : (readCall max s).seq = s.seq := rfl
@[simp] theorem readCall_attemptsLeft (max : Nat) (s : State) : (readCall max s).attemptsLeft = s.attemptsLeft := rfl
@[simp] theorem readCall_lastCount (max : Nat) (s : State) : (readCall max s).lastCount = s.lastCount := rfl
@[simp] theorem readCall_pending (max : Nat) (s : State) : (readCall max s).pending = s.pending := rfl
@[simp] theorem readCall_scratch (max : Nat) (s : State) : (readCall max s).scratch = s.scratch := rfl
@[simp] theorem readCall_diag (max : Nat) (s : State) : (readCall max s).diag = s.diag := rfl
@[simp] theorem readCall_refused (max : Nat) (s : State) : (readCall max s).refused = s.refused := rfl
@[simp] theorem readCall_params (max : Nat) (s : State) : (readCall max s).params = s.params := rfl
@[simp] theorem readCall_inbox (max : Nat) (s : State) : (readCall max s).inbox = s.inbox := rfl
@[simp] theorem readCall_hostLog (max : Nat) (s : State) : (readCall max s).hostLog = s.hostLog := rfl
@[simp] theorem readCall_writeScript (max : Nat) (s : State) : (readCall max s).writeScript = s.writeScript := rfl
@[simp] theorem readCall_readScript (max : Nat) (s : State) : (readCall max s).readScript = ReadAnswer.leftover max (nextReadAnswer s) ++ s.readScript.tail := rfl
@[simp] theorem readCall_linkLog (max : Nat) (s : State) : (readCall max s).linkLog = s.linkLog ++ [.read max (ReadAnswer.count max (nextReadAnswer s)) (ReadAnswer.delivered max (nextReadAnswer s))] := rfl
@[simp] theorem readCall_draws (max : Nat) (s : State) : (readCall max s).draws = if s.readScript.isEmpty then s.draws + 1 else s.draws := rfl
@[simp] theorem readCall_sleeps (max : Nat) (s : State) : (readCall max s).sleeps = s.sleeps := rfl

end Sys2Proof.Machine
end

