-- ==== Sys2Proof/Laws/Memory.lean ====
section
/-! SUPPORT. The laws of the scratch buffer: reading after writing, what a write leaves alone, and that every memory operation keeps the
canonical form (spec 20_memory.md R46). -/

namespace Sys2Proof.Machine

/-! ## One byte -/

theorem Memory.lookup_write (m : Memory) (a : Nat) (b : Byte) (x : Nat) :
    Memory.lookup (Memory.write m a b) x = if x = a then some b else Memory.lookup m x := by
  have hs : a = x ↔ x = a := eq_comm
  induction m with
  | nil => simp only [Memory.write, Memory.lookup, hs]
  | cons c m ih =>
    unfold Memory.write
    split
    · simp only [Memory.lookup, hs]
    · split
      next h1 h2 => by_cases h : x = a <;> simp_all [Memory.lookup]
      next h1 h2 =>
        by_cases h : x = a
        · subst h; simp [Memory.lookup, ih, Ne.symm h2]
        · simp [Memory.lookup, ih, h]

/-- Every address of a memory whose canonical form starts below `c` lies above it. -/
theorem Memory.wf_cons {c : Host.Cell} {m : Memory} :
    Memory.wf (c :: m) = true ↔ (∀ d ∈ m, c.1 < d.1) ∧ Memory.wf m = true := by
  induction m generalizing c with
  | nil => simp [Memory.wf]
  | cons d m ih =>
    simp only [Memory.wf, Bool.and_eq_true, decide_eq_true_eq, List.mem_cons, forall_eq_or_imp]
    constructor
    · rintro ⟨h1, h2⟩
      exact ⟨⟨h1, fun e he => lt_trans h1 ((ih.1 h2).1 e he)⟩, h2⟩
    · rintro ⟨⟨h1, -⟩, h2⟩
      exact ⟨h1, h2⟩

theorem Memory.mem_write {m : Memory} {a : Nat} {b : Byte} {c : Host.Cell} (h : c ∈ Memory.write m a b) :
    c = (a, b) ∨ c ∈ m := by
  induction m with
  | nil => simpa [Memory.write] using h
  | cons d m ih =>
    unfold Memory.write at h
    split at h
    · simpa using h
    · split at h
      · rcases List.mem_cons.1 h with h | h
        · exact .inl h
        · exact .inr (List.mem_cons_of_mem _ h)
      · rcases List.mem_cons.1 h with h | h
        · exact .inr (h ▸ List.mem_cons_self)
        · exact (ih h).imp_right (List.mem_cons_of_mem _)

theorem Memory.write_wf {m : Memory} (a : Nat) (b : Byte) (h : Memory.wf m = true) : Memory.wf (Memory.write m a b) = true := by
  induction m with
  | nil => simp [Memory.write, Memory.wf]
  | cons c m ih =>
    obtain ⟨h1, h2⟩ := Memory.wf_cons.1 h
    unfold Memory.write
    split
    next hlt =>
      refine Memory.wf_cons.2 ⟨fun d hd => ?_, h⟩
      rcases List.mem_cons.1 hd with rfl | hd
      · exact hlt
      · exact lt_trans hlt (h1 d hd)
    next hlt =>
      split
      next heq => exact Memory.wf_cons.2 ⟨fun d hd => heq ▸ h1 d hd, h2⟩
      next hne =>
        refine Memory.wf_cons.2 ⟨fun d hd => ?_, ih h2⟩
        rcases Memory.mem_write hd with rfl | hd
        · exact lt_of_le_of_ne (not_lt.1 hlt) (Ne.symm hne)
        · exact h1 d hd

/-! ## Runs -/

theorem Memory.lookup_writeRun (v : List Byte) (m : Memory) (a x : Nat) :
    Memory.lookup (Memory.writeRun m a v) x = if a ≤ x ∧ x < a + v.length then v[x - a]? else Memory.lookup m x := by
  induction v generalizing m a with
  | nil =>
    have : ¬(a ≤ x ∧ x < a) := by omega
    simp [Memory.writeRun, this]
  | cons b v ih =>
    rw [Memory.writeRun, ih, Memory.lookup_write]
    by_cases hx : x = a
    · subst hx
      simp
    · by_cases hr : a + 1 ≤ x ∧ x < a + 1 + v.length
      · have h2 : a ≤ x ∧ x < a + (b :: v).length := by simp; omega
        have h3 : x - a = x - (a + 1) + 1 := by omega
        rw [if_pos hr, if_pos h2, h3, List.getElem?_cons_succ]
      · have h2 : ¬(a ≤ x ∧ x < a + (b :: v).length) := by simp; omega
        rw [if_neg hr, if_neg h2, if_neg hx]

theorem Memory.byteAt_writeRun_of_outside {v : List Byte} {m : Memory} {a x : Nat} (h : ¬(a ≤ x ∧ x < a + v.length)) :
    Memory.byteAt (Memory.writeRun m a v) x = Memory.byteAt m x := by
  simp only [Memory.byteAt, Memory.lookup_writeRun, if_neg h]

theorem Memory.byteAt_writeRun_of_inside {v : List Byte} {m : Memory} {a : Nat} (k : Nat) (h : k < v.length) :
    Memory.byteAt (Memory.writeRun m a v) (a + k) = v[k] := by
  simp [Memory.byteAt, Memory.lookup_writeRun, h]

theorem Memory.writeRun_wf (v : List Byte) {m : Memory} (a : Nat) (h : Memory.wf m = true) :
    Memory.wf (Memory.writeRun m a v) = true := by
  induction v generalizing m a with
  | nil => exact h
  | cons b v ih => exact ih (a + 1) (Memory.write_wf a b h)

theorem Memory.mem_writeRun {v : List Byte} {m : Memory} {a : Nat} {c : Host.Cell} (h : c ∈ Memory.writeRun m a v) :
    (a ≤ c.1 ∧ c.1 < a + v.length) ∨ c ∈ m := by
  induction v generalizing m a with
  | nil => exact .inr h
  | cons b v ih =>
    rcases ih h with h | h
    · exact .inl (by simp; omega)
    · rcases Memory.mem_write h with rfl | h
      · exact .inl (by simp)
      · exact .inr h

@[simp] theorem Memory.readRun_length (m : Memory) (a n : Nat) : (Memory.readRun m a n).length = n := by
  induction n generalizing a with
  | zero => rfl
  | succ n ih => simp [Memory.readRun, ih]

theorem Memory.readRun_getElem (m : Memory) (a n k : Nat) (h : k < n) :
    (Memory.readRun m a n)[k]'(by simpa using h) = Memory.byteAt m (a + k) := by
  induction n generalizing a k with
  | zero => omega
  | succ n ih =>
    cases k with
    | zero => rfl
    | succ k =>
      simp only [Memory.readRun, List.getElem_cons_succ]
      rw [ih (a + 1) k (by omega)]
      congr 1
      omega

/-- Reading back a run just written gives the bytes written. -/
theorem Memory.readRun_writeRun (v : List Byte) (m : Memory) (a : Nat) :
    Memory.readRun (Memory.writeRun m a v) a v.length = v := by
  apply List.ext_getElem (by simp)
  intro k h1 h2
  rw [Memory.readRun_getElem _ _ _ _ h2, Memory.byteAt_writeRun_of_inside k h2]

/-! ## `memRead` and `memWrite` -/

theorem runInScratch_iff (s : State) (a n : Nat) : runInScratch s a n = true ↔ a + n ≤ s.params.scratchCapacity := by
  simp [runInScratch]

/-- All that `memWrite` can do: nothing for a run that leaves the buffer, else `scratch` alone changes. -/
theorem memWrite_eq_some {a : Nat} {v : List Byte} {s t : State} (h : memWrite a v s = some t) :
    a + v.length ≤ s.params.scratchCapacity ∧ t = { s with scratch := Memory.writeRun s.scratch a v } := by
  unfold memWrite at h
  split at h
  next hr => exact ⟨(runInScratch_iff _ _ _).1 hr, (Option.some.inj h).symm⟩
  next => cases h

theorem memWrite_of_fits {a : Nat} {v : List Byte} {s : State} (h : a + v.length ≤ s.params.scratchCapacity) :
    memWrite a v s = some { s with scratch := Memory.writeRun s.scratch a v } :=
  if_pos ((runInScratch_iff _ _ _).2 h)

theorem memRead_of_fits {a n : Nat} {s : State} (h : a + n ≤ s.params.scratchCapacity) :
    memRead a n s = some (Memory.readRun s.scratch a n) :=
  if_pos ((runInScratch_iff _ _ _).2 h)

theorem memRead_eq_some {a n : Nat} {s : State} {v : List Byte} (h : memRead a n s = some v) :
    a + n ≤ s.params.scratchCapacity ∧ v = Memory.readRun s.scratch a n := by
  unfold memRead at h
  split at h
  next hr => exact ⟨(runInScratch_iff _ _ _).1 hr, (Option.some.inj h).symm⟩
  next => cases h

end Sys2Proof.Machine
end

