-- ==== Sys2Proof/Laws/Ops.lean ====
section
/-! SUPPORT. Once for each shared operation, everything it can do; and the inversion lemmas of exec, the attempt step and step, which later
proofs cite instead of unfolding. -/

namespace Sys2Proof.Machine

/-! ## Refusal conditions -/

theorem firstReason_mem {l : List (Bool × RefReason)} {r : RefReason} (h : firstReason l = some r) : (true, r) ∈ l := by
  induction l with
  | nil => cases h
  | cons c l ih =>
    obtain ⟨b, q⟩ := c
    cases b with
    | true => simp [firstReason] at h; simp [h]
    | false => simp [firstReason] at h; exact List.mem_cons_of_mem _ (ih h)

theorem firstReason_eq_none {l : List (Bool × RefReason)} : firstReason l = none ↔ ∀ c ∈ l, c.1 = false := by
  induction l with
  | nil => simp [firstReason]
  | cons c l ih =>
    obtain ⟨b, q⟩ := c
    cases b <;> simp [firstReason, ih]

/-- A request that arrives while a transaction is in flight is refused. -/
theorem unlessRefused_busy {rs : List (Bool × RefReason)} {s : State} {k : Host.Outcome State Fault Refusal}
    (h : s.pending.isSome = true) : unlessRefused rs s k = .next (refuse .busy s) := by
  simp [unlessRefused, firstReason, h]

/-- With nothing in flight the first condition that holds refuses. -/
theorem unlessRefused_refused {rs : List (Bool × RefReason)} {s : State} {k : Host.Outcome State Fault Refusal} {r : RefReason}
    (h : s.pending = none) (hr : firstReason rs = some r) : unlessRefused rs s k = .next (refuse r s) := by
  simp [unlessRefused, firstReason, h, hr]

/-- With nothing in flight and no condition holding the request does its effect. -/
theorem unlessRefused_effect {rs : List (Bool × RefReason)} {s : State} {k : Host.Outcome State Fault Refusal}
    (h : s.pending = none) (hr : firstReason rs = none) : unlessRefused rs s k = k := by
  simp [unlessRefused, firstReason, h, hr]

/-- Everything `unlessRefused` can do. -/
theorem unlessRefused_cases (rs : List (Bool × RefReason)) (s : State) (k : Host.Outcome State Fault Refusal) :
    (∃ r, unlessRefused rs s k = .next (refuse r s)) ∨
      (s.pending = none ∧ firstReason rs = none ∧ unlessRefused rs s k = k) := by
  cases hp : s.pending with
  | some p => exact .inl ⟨.busy, unlessRefused_busy (by simp [hp])⟩
  | none =>
    cases hr : firstReason rs with
    | some r => exact .inl ⟨r, unlessRefused_refused hp hr⟩
    | none => exact .inr ⟨rfl, rfl, unlessRefused_effect hp hr⟩

/-! ## The stream -/

theorem nextWriteCount_le (n : Nat) (s : State) : nextWriteCount n s ≤ (n : Int) := by
  unfold nextWriteCount
  split <;> exact min_le_right _ _

/-- While the script lasts its head is the next answer. -/
theorem nextReadAnswer_of_script {s : State} {a : ReadAnswer} {rest : List ReadAnswer} (h : s.readScript = a :: rest) :
    nextReadAnswer s = a := by
  simp [nextReadAnswer, h]

/-- When the script is used up the next answer is a free draw. -/
theorem nextReadAnswer_of_empty {s : State} (h : s.readScript = []) : nextReadAnswer s = Config.freeRead s.draws := by
  simp [nextReadAnswer, h]

theorem ReadAnswer.delivered_length_le (max : Nat) (a : ReadAnswer) : (ReadAnswer.delivered max a).length ≤ max := by
  cases a <;> simp [ReadAnswer.delivered]

/-- A positive count is the number of bytes delivered. -/
theorem ReadAnswer.count_of_pos {max : Nat} {a : ReadAnswer} (h : 0 < ReadAnswer.count max a) :
    ReadAnswer.count max a = ((ReadAnswer.delivered max a).length : Int) := by
  cases a with
  | noData k => simp only [ReadAnswer.count] at h; omega
  | data bytes => rfl

theorem ReadAnswer.count_le (max : Nat) (a : ReadAnswer) : ReadAnswer.count max a ≤ (max : Int) := by
  cases a with
  | noData k => simp only [ReadAnswer.count]; omega
  | data bytes => simp [ReadAnswer.count]

/-- Everything `streamRead` can do in a buffer that holds a full read. -/
theorem streamRead_of_fits {max : Nat} {s : State} (h : max ≤ s.params.scratchCapacity) :
    streamRead max s = some (ReadAnswer.count max (nextReadAnswer s),
      if 0 < ReadAnswer.count max (nextReadAnswer s) then
        { readCall max s with scratch := Memory.writeRun s.scratch 0 (ReadAnswer.delivered max (nextReadAnswer s)) }
      else readCall max s) := by
  have hl := ReadAnswer.delivered_length_le max (nextReadAnswer s)
  by_cases hc : 0 < ReadAnswer.count max (nextReadAnswer s)
  · have hf : 0 + (ReadAnswer.delivered max (nextReadAnswer s)).length ≤ (readCall max s).params.scratchCapacity := by
      simpa using hl.trans h
    simp [streamRead, hc, memWrite_of_fits hf]
  · simp [streamRead, hc]

/-- What a `streamRead` that answers has done. -/
theorem streamRead_eq_some {max : Nat} {s : State} {r : Int × State} (h : streamRead max s = some r) :
    r.1 = ReadAnswer.count max (nextReadAnswer s) ∧
      r.2 = (if 0 < ReadAnswer.count max (nextReadAnswer s) then
        { readCall max s with scratch := Memory.writeRun s.scratch 0 (ReadAnswer.delivered max (nextReadAnswer s)) }
      else readCall max s) := by
  unfold streamRead at h
  by_cases hc : 0 < ReadAnswer.count max (nextReadAnswer s)
  · simp only [hc, if_true, Option.map_eq_some_iff] at h
    obtain ⟨t, ht, rfl⟩ := h
    exact ⟨rfl, by simp [hc, (memWrite_eq_some ht).2]⟩
  · simp only [hc, if_false, Option.some.injEq] at h
    subst h
    exact ⟨rfl, by simp [hc]⟩

/-! ## The request step of a transaction -/

/-- The state after the request step of a transaction whose envelope fits. -/
def transactionStarted (mk : Int → Nat → Pending) (env : List Byte) (budget : Nat) (s : State) : State :=
  { s with
    scratch := Memory.writeRun s.scratch 0 env
    writeScript := s.writeScript.tail
    draws := if s.writeScript.isEmpty then s.draws + 1 else s.draws
    linkLog := s.linkLog ++ [.write env (nextWriteCount env.length s)]
    seq := .polling
    attemptsLeft := budget
    pending := some (mk (nextWriteCount env.length s) env.length) }

/-- Everything `beginTransaction` can do. -/
theorem beginTransaction_eq (mk : Int → Nat → Pending) (env : List Byte) (budget : Nat) (s : State) :
    beginTransaction mk env budget s =
      if env.length ≤ s.params.scratchCapacity then .next (transactionStarted mk env budget s) else .fault .scratchRange := by
  by_cases h : env.length ≤ s.params.scratchCapacity
  · have h0 : 0 + env.length ≤ s.params.scratchCapacity := by simpa using h
    rw [if_pos h, beginTransaction, memWrite_of_fits h0]
    simp only [memRead_of_fits (s := { s with scratch := Memory.writeRun s.scratch 0 env }) h0, Memory.readRun_writeRun]
    rfl
  · have h0 : memWrite 0 env s = none := by
      unfold memWrite
      rw [if_neg]
      simp [runInScratch, h]
    rw [if_neg h, beginTransaction, h0]

@[simp] theorem parmsSer_length (p : RadioRegisterParms) : (parmsSer p).length = 18 := rfl
@[simp] theorem envInit_length (p : Params) (parms : RadioRegisterParms) : (envInit p parms).length = 20 := rfl
@[simp] theorem envStatusQuery_length (p : Params) : (envStatusQuery p).length = 2 := rfl
@[simp] theorem envTxBlock_length (p : Params) (c : Nat) (block : List Byte) : (envTxBlock p c block).length = 4 + block.length := by
  simp [envTxBlock]; omega

theorem overCapacity_eq_false {len : Nat} {s : State} : overCapacity len s = false ↔ len ≤ s.params.scratchCapacity := by
  simp [overCapacity]

/-! ## exec -/

/-- The clamp notices carry a rate above 300,000. -/
theorem clampNotices_rate {scheme : Scheme} {r0 r : Rat} (h : Notice.fourFskClamp r ∈ clampNotices scheme r0) : 300000 < r := by
  unfold clampNotices at h
  split at h
  next hc =>
    simp only [List.mem_singleton, Notice.fourFskClamp.injEq] at h
    subst h
    simp only [clampApplies, Bool.and_eq_true, decide_eq_true_eq] at hc
    exact hc.2
  next => simp at h

/-- What a request can do when it is taken: an answer with some notices; a new crystal frequency; the start of a poll without or with an
envelope written. -/
inductive Effect (s : State) : Host.Outcome State Fault Refusal → Prop where
  | answer (v : Result) (scheme : Scheme) (r0 : Rat) : Effect s (.next (respond v (emit (clampNotices scheme r0) s)))
  | xtal (hz : Nat) (h : hz ≠ 0) : Effect s (.next (respond .ack { s with xtal := hz }))
  | poll (budget : Nat) (h : budget ≠ 0) : Effect s (.next (beginPoll .readWithTimeout budget s))
  | transaction (mk : Int → Nat → Pending) (hmk : mk = .sendInit ∨ mk = .queryStatus ∨ mk = .sendBlock) (env : List Byte)
      (budget : Nat) (hb : budget = s.params.initAttempts ∨ budget = s.params.statusAttempts ∨ budget ≠ 0)
      (hfit : env.length ≤ s.params.scratchCapacity) (scheme : Scheme) (r0 : Rat) :
      Effect s (.next (transactionStarted mk env budget (emit (clampNotices scheme r0) s)))

theorem emit_nil (s : State) : emit [] s = s := by simp [emit]

theorem clampNotices_zero : clampNotices .fsk2 0 = [] := rfl

/-- An answer without notices. -/
theorem Effect.plain (s : State) (v : Result) : Effect s (.next (respond v s)) := by
  have := Effect.answer (s := s) v .fsk2 0
  rwa [clampNotices_zero, emit_nil] at this

theorem Effect.ofTransaction {s : State} (mk : Int → Nat → Pending) (hmk : mk = .sendInit ∨ mk = .queryStatus ∨ mk = .sendBlock)
    (env : List Byte) (budget : Nat) (hb : budget = s.params.initAttempts ∨ budget = s.params.statusAttempts ∨ budget ≠ 0)
    (hfit : env.length ≤ s.params.scratchCapacity) (scheme : Scheme) (r0 : Rat) :
    Effect s (beginTransaction mk env budget (emit (clampNotices scheme r0) s)) := by
  rw [beginTransaction_eq, if_pos (by simpa using hfit)]
  exact .transaction mk hmk env budget hb hfit scheme r0

/-- Everything exec can do: refuse, or, with nothing in flight, one of the effects. -/
theorem exec_cases (i : Instr) (s : State) :
    (∃ r, exec i s = .next (refuse r s)) ∨ (s.pending = none ∧ Effect s (exec i s)) := by
  have guarded : ∀ (rs : List (Bool × RefReason)) (k : Host.Outcome State Fault Refusal), (firstReason rs = none → Effect s k) →
      (∃ r, unlessRefused rs s k = .next (refuse r s)) ∨ (s.pending = none ∧ Effect s (unlessRefused rs s k)) := by
    intro rs k hk
    rcases unlessRefused_cases rs s k with h | ⟨h1, h2, h3⟩
    · exact .inl h
    · exact .inr ⟨h1, by rw [h3]; exact hk h2⟩
  have plain : ∀ (rs : List (Bool × RefReason)) (v : Result),
      (∃ r, unlessRefused rs s (.next (respond v s)) = .next (refuse r s)) ∨
        (s.pending = none ∧ Effect s (unlessRefused rs s (.next (respond v s)))) :=
    fun rs v => guarded rs _ fun _ => Effect.plain s v
  have always : ∀ k, (∃ r, unlessRefused [(true, RefReason.argRange)] s k = .next (refuse r s)) ∨
      (s.pending = none ∧ Effect s (unlessRefused [(true, RefReason.argRange)] s k)) :=
    fun k => guarded _ _ fun h => by simp [firstReason] at h
  cases i with
  | freqWord | ifWord | modEnc | modDec | chanBw | effRate | byteTime | parmsSer | envInit | envStatusQuery | envTxBlock | envParse
    | rssiDbm | fsmName | cmdInit | cmdStatusQuery | cmdTxBlock => exact plain _ _
  | parmsDes bytes =>
    show (∃ r, execParmsDes bytes s = _) ∨ (_ ∧ Effect s (execParmsDes bytes s))
    unfold execParmsDes
    cases parmsDes bytes with
    | some p => exact plain _ _
    | none => exact always _
  | statusDecode payload =>
    show (∃ r, execStatusDecode payload s = _) ∨ (_ ∧ Effect s (execStatusDecode payload s))
    unfold execStatusDecode
    cases statusDecode payload with
    | some p => exact plain _ _
    | none => exact always _
  | drateDev baseRate skew modIndex scheme => exact guarded _ _ fun _ => Effect.answer _ _ _
  | encodeConfig cfg => exact guarded _ _ fun _ => Effect.answer _ _ _
  | readWithTimeout k =>
    exact guarded [(k == 0, .attemptsZero)] _ fun h => Effect.poll k (by rintro rfl; cases h)
  | setXtal hz => exact guarded [(hz == 0, .xtalZero)] _ fun h => Effect.xtal hz (by rintro rfl; cases h)
  | sendInit cfg =>
    exact guarded _ _ fun h =>
      Effect.ofTransaction .sendInit (.inl rfl) _ _ (.inl rfl)
        (overCapacity_eq_false.1 (firstReason_eq_none.1 h _ List.mem_cons_self)) _ _
  | queryStatus =>
    refine guarded _ _ fun h => ?_
    have := Effect.ofTransaction .queryStatus (.inr (.inl rfl)) (envStatusQuery s.params) s.params.statusAttempts
      (.inr (.inl rfl)) (overCapacity_eq_false.1 (firstReason_eq_none.1 h _ List.mem_cons_self)) .fsk2 0
    rwa [clampNotices_zero, emit_nil] at this
  | sendBlock c block k =>
    refine guarded _ _ fun h => ?_
    have hl := firstReason_eq_none.1 h
    simp only [List.mem_cons, forall_eq_or_imp] at hl
    have hk : k ≠ 0 := by simpa using hl.2.2.2.1
    have := Effect.ofTransaction .sendBlock (.inr (.inr rfl)) (envTxBlock s.params c block) k
      (.inr (.inr hk)) (overCapacity_eq_false.1 hl.2.2.1) .fsk2 0
    rwa [clampNotices_zero, emit_nil] at this

/-! ## The attempt step -/

theorem statusDecode_isSome {p : List Byte} (h : p.length = 12) : ∃ st, statusDecode p = some st := by
  match p, h with
  | [_, _, _, _, _, _, _, _, _, _, _, _], _ => exact ⟨_, rfl⟩

/-- In a buffer that holds a full reply every transaction has a result. -/
theorem transactionResult_isSome (p : Pending) (n : Int) {s : State} (h : 14 ≤ s.params.scratchCapacity) :
    ∃ v, transactionResult p n s = some v := by
  cases p with
  | queryStatus w len =>
    have h0 : replyPayloadAt + statusLen ≤ s.params.scratchCapacity := h
    obtain ⟨st, hst⟩ := statusDecode_isSome (Memory.readRun_length s.scratch replyPayloadAt statusLen)
    exact ⟨statusTag w len n st, by simp [transactionResult, statusResult, memRead_of_fits h0, hst]⟩
  | _ => exact ⟨_, rfl⟩

/-- Everything `completePoll` can do in a buffer that holds a full reply. -/
theorem completePoll_cases (n : Int) {s : State} (h : 14 ≤ s.params.scratchCapacity) :
    (s.pending = none ∧ completePoll n s = .next { s with seq := .idle }) ∨
      ∃ p v, s.pending = some p ∧ transactionResult p n s = some v ∧
        completePoll n s = .next (respond v { s with seq := .idle, pending := none }) := by
  cases hp : s.pending with
  | none => exact .inl ⟨rfl, by simp [completePoll, hp]⟩
  | some p =>
    obtain ⟨v, hv⟩ := transactionResult_isSome p n h
    exact .inr ⟨p, v, rfl, hv, by simp [completePoll, hp, hv]⟩

/-- The state after the read of an attempt: the delivered bytes in the buffer, `LAST_COUNT` set. -/
def attemptRead (s : State) : State :=
  { readCall readMax s with
    scratch := Memory.writeRun s.scratch 0 (ReadAnswer.delivered readMax (nextReadAnswer s))
    lastCount := ReadAnswer.count readMax (nextReadAnswer s) }

theorem ReadAnswer.delivered_of_not_pos {max : Nat} {a : ReadAnswer} (h : ¬0 < ReadAnswer.count max a) :
    ReadAnswer.delivered max a = [] := by
  cases a with
  | noData k => rfl
  | data bytes =>
    simp only [ReadAnswer.count, Int.natCast_pos, not_lt, Nat.le_zero_eq] at h
    exact List.length_eq_zero_iff.1 h

/-- The attempt step in a buffer that holds a full read. -/
theorem attemptStep_eq {s : State} (h : 14 ≤ s.params.scratchCapacity) :
    attemptStep s =
      if 0 < ReadAnswer.count readMax (nextReadAnswer s) then completePoll (ReadAnswer.count readMax (nextReadAnswer s)) (attemptRead s)
      else failedAttempt (ReadAnswer.count readMax (nextReadAnswer s)) (attemptRead s) := by
  rw [attemptStep, streamRead_of_fits (max := readMax) h]
  by_cases hc : 0 < ReadAnswer.count readMax (nextReadAnswer s)
  · simp [hc, attemptRead]
  · simp [hc, attemptRead, ReadAnswer.delivered_of_not_pos hc, Memory.writeRun]

/-! ## step -/

/-- Everything a step can be: waiting, an attempt, the request at the head of the inbox run or found undecodable. -/
theorem step_cases (s : State) :
    (s.inbox = [] ∧ s.seq = .idle ∧ step s = .next s) ∨
      (s.seq = .polling ∧ (∀ a rest, s.inbox = a :: rest → a.early = false) ∧ step s = attemptStep s) ∨
      ∃ a rest, s.inbox = a :: rest ∧ (s.seq = .idle ∨ a.early = true) ∧
        ((∃ i, decode s.params a.body = .ok i ∧
            step s = exec i { s with inbox := rest, hostLog := s.hostLog ++ [.request a.body] }) ∨
          ∃ err, decode s.params a.body = .error err ∧
            step s = undecodable err a.body { s with inbox := rest, hostLog := s.hostLog ++ [.request a.body] }) := by
  have taken : ∀ a rest, s.inbox = a :: rest → fetch s = takeRequest a rest s →
      ((∃ i, decode s.params a.body = .ok i ∧
          step s = exec i { s with inbox := rest, hostLog := s.hostLog ++ [.request a.body] }) ∨
        ∃ err, decode s.params a.body = .error err ∧
          step s = undecodable err a.body { s with inbox := rest, hostLog := s.hostLog ++ [.request a.body] }) := by
    intro a rest _ hf
    cases hd : decode s.params a.body with
    | ok i => exact .inl ⟨i, rfl, by simp [step, hf, takeRequest, hd]⟩
    | error err => exact .inr ⟨err, rfl, by simp [step, hf, takeRequest, hd]⟩
  rcases hi : s.inbox with _ | ⟨a, rest⟩
  · rcases hq : s.seq with _ | _
    · exact .inl ⟨rfl, rfl, by simp [step, fetch, hi, hq]⟩
    · exact .inr (.inl ⟨rfl, by simp, by simp [step, fetch, hi, hq]⟩)
  · by_cases hq : s.seq = .idle
    · exact .inr (.inr ⟨a, rest, rfl, .inl hq, taken a rest hi (by simp [fetch, hi, hq])⟩)
    · have hq' : s.seq = .polling := by cases h : s.seq <;> simp_all
      by_cases he : a.early = true
      · exact .inr (.inr ⟨a, rest, rfl, .inr he, taken a rest hi (by simp [fetch, hi, hq', he])⟩)
      · refine .inr (.inl ⟨hq', ?_, by simp [step, fetch, hi, hq', he]⟩)
        rintro b r hb
        cases hb
        simpa using he

/-- An encoded form that stands for no instruction is refused as busy, like one that does, while a transaction is in flight. -/
theorem undecodable_busy {err : DecodeError} {e : Encoded} {s : State} (h : s.pending.isSome = true) :
    undecodable err e s = .next (refuse .busy s) := by
  cases e <;> exact unlessRefused_busy h

/-- Everything `undecodable` can do. -/
theorem undecodable_cases (err : DecodeError) (e : Encoded) (s : State) :
    (∃ r, undecodable err e s = .next (refuse r s)) ∨
      (s.pending = none ∧ ∃ v, undecodable err e s = .next (respond v s)) := by
  cases e with
  | request op args =>
    rcases unlessRefused_cases [(err = .reservedOp, .reservedOp), (true, .argRange)] s (.next s) with h | ⟨-, h2, -⟩
    · exact .inl h
    · exfalso
      by_cases he : err = .reservedOp <;> simp [firstReason, he] at h2
  | envelope bytes =>
    rcases unlessRefused_cases [] s (.next (respond (.parsed (envParse s.params bytes)) s)) with h | ⟨h1, -, h3⟩
    · exact .inl h
    · exact .inr ⟨h1, _, h3⟩

end Sys2Proof.Machine
end

