-- ==== Sys2Proof/Laws/PerInstr.lean ====
section
/-! SUPPORT. The family `ArgumentRange`: for each instruction, `Instr.wellFormed` is the argument range 30_encoding.md R64 (for a wire command, the
payload length of R66) states for it, in plain arithmetic. -/

namespace Sys2Proof.Laws.ArgumentRange

/-- Every field inside its width (10_state.md R27), in plain arithmetic. -/
def ParmsRange (p : RadioRegisterParms) : Prop :=
  p.freq ≤ 16777215 ∧ p.ifw ≤ 31 ∧ p.mod ≤ 7 ∧ p.sync ≤ 7 ∧ p.chanspc_m ≤ 255 ∧ p.chanspc_e ≤ 3 ∧ p.chanbw_m ≤ 3 ∧
    p.chanbw_e ≤ 3 ∧ p.drate_m ≤ 255 ∧ p.drate_e ≤ 15 ∧ p.deviat_m ≤ 7 ∧ p.deviat_e ≤ 7 ∧ p.fecwhite ≤ 255 ∧
    p.pktlen ≤ 255 ∧ p.pktmode ≤ 1 ∧ p.preamble ≤ 7

/-- The argument range of an instruction. -/
def Range : Instr → Prop
  | .freqWord _ | .ifWord _ | .modEnc _ | .chanBw _ | .drateDev _ _ _ _ | .effRate _ | .byteTime _ | .encodeConfig _
  | .envStatusQuery | .envParse _ | .readWithTimeout _ | .sendInit _ | .queryStatus | .setXtal _ => True
  | .modDec word => word ≤ 7
  | .parmsSer p | .envInit p => ParmsRange p
  | .parmsDes s => s.length = 18
  | .envTxBlock countdown _ | .sendBlock countdown _ _ => countdown ≤ 255
  | .statusDecode p => p.length = 12
  | .rssiDbm r => r ≤ 255
  | .fsmName code => code ≤ 31
  | .cmdInit payload | .cmdStatusQuery payload | .cmdTxBlock payload => payload.length ≤ 255

def Statement (i : Instr) : Prop := i.wellFormed = true ↔ Range i

theorem parmsInWidth_iff (p : RadioRegisterParms) : Machine.parmsInWidth p = true ↔ ParmsRange p := by
  simp only [Machine.parmsInWidth, Bool.and_eq_true, decide_eq_true_eq, ParmsRange, and_assoc]
  omega

theorem freqWord (freqHz : Nat) : Statement (.freqWord freqHz) := ⟨fun _ => trivial, fun _ => rfl⟩
theorem ifWord (ifHz : Nat) : Statement (.ifWord ifHz) := ⟨fun _ => trivial, fun _ => rfl⟩
theorem modEnc (scheme : Scheme) : Statement (.modEnc scheme) := ⟨fun _ => trivial, fun _ => rfl⟩
theorem modDec (word : Nat) : Statement (.modDec word) := decide_eq_true_iff
theorem chanBw (reqBw : Rat) : Statement (.chanBw reqBw) := ⟨fun _ => trivial, fun _ => rfl⟩
theorem drateDev (baseRate skew modIndex : Rat) (scheme : Scheme) : Statement (.drateDev baseRate skew modIndex scheme) :=
  ⟨fun _ => trivial, fun _ => rfl⟩
theorem effRate (parms : RadioRegisterParms) : Statement (.effRate parms) := ⟨fun _ => trivial, fun _ => rfl⟩
theorem byteTime (parms : RadioRegisterParms) : Statement (.byteTime parms) := ⟨fun _ => trivial, fun _ => rfl⟩
theorem encodeConfig (cfg : RadioLinkConfig) : Statement (.encodeConfig cfg) := ⟨fun _ => trivial, fun _ => rfl⟩
theorem parmsSer (parms : RadioRegisterParms) : Statement (.parmsSer parms) := parmsInWidth_iff parms
theorem parmsDes (s : List Byte) : Statement (.parmsDes s) := beq_iff_eq
theorem envInit (parms : RadioRegisterParms) : Statement (.envInit parms) := parmsInWidth_iff parms
theorem envStatusQuery : Statement .envStatusQuery := ⟨fun _ => trivial, fun _ => rfl⟩
theorem envTxBlock (countdown : Nat) (block : List Byte) : Statement (.envTxBlock countdown block) := decide_eq_true_iff
theorem envParse (s : List Byte) : Statement (.envParse s) := ⟨fun _ => trivial, fun _ => rfl⟩
theorem statusDecode (p : List Byte) : Statement (.statusDecode p) := beq_iff_eq
theorem rssiDbm (r : Nat) : Statement (.rssiDbm r) := decide_eq_true_iff
theorem fsmName (code : Nat) : Statement (.fsmName code) := decide_eq_true_iff
theorem readWithTimeout (maxAttempts : Nat) : Statement (.readWithTimeout maxAttempts) := ⟨fun _ => trivial, fun _ => rfl⟩
theorem sendInit (cfg : RadioLinkConfig) : Statement (.sendInit cfg) := ⟨fun _ => trivial, fun _ => rfl⟩
theorem queryStatus : Statement .queryStatus := ⟨fun _ => trivial, fun _ => rfl⟩
theorem sendBlock (countdown : Nat) (block : List Byte) (maxAttempts : Nat) :
    Statement (.sendBlock countdown block maxAttempts) := decide_eq_true_iff
theorem setXtal (hz : Nat) : Statement (.setXtal hz) := ⟨fun _ => trivial, fun _ => rfl⟩
theorem cmdInit (payload : List Byte) : Statement (.cmdInit payload) := decide_eq_true_iff
theorem cmdStatusQuery (payload : List Byte) : Statement (.cmdStatusQuery payload) := decide_eq_true_iff
theorem cmdTxBlock (payload : List Byte) : Statement (.cmdTxBlock payload) := decide_eq_true_iff

end Sys2Proof.Laws.ArgumentRange
end

