-- ==== Sys2Proof/Laws/Run.lean ====
section
/-! SUPPORT. Runs of the core, one step and many steps at a time, and what an attempt or a request leaves alone. -/

namespace Sys2Proof.Machine

/-! ## Runs -/

/-- A run of no steps, of any core. -/
theorem run_zero_of (M : Host.Core) (s : M.State) : M.run 0 s = .next s := rfl

/-- A run that begins with a step to `t` goes on from `t`, of any core. -/
theorem run_succ_of (M : Host.Core) (k : Nat) {s t : M.State} (h : M.step s = .next t) : M.run (k + 1) s = M.run k t := by
  rw [Host.Core.run, h]

/-- A run of `j + k` steps whose first `j` reach `t` goes on from `t`, of any core. -/
theorem run_add_of (M : Host.Core) {j : Nat} (k : Nat) {s t : M.State} (h : M.run j s = .next t) : M.run (j + k) s = M.run k t := by
  induction j generalizing s with
  | zero =>
    rw [run_zero_of] at h
    cases h
    rw [Nat.zero_add]
  | succ j ih =>
    rw [Host.Core.run] at h
    cases hu : M.step s with
    | next u =>
      rw [hu] at h
      rw [show j + 1 + k = (j + k) + 1 by omega, run_succ_of M _ hu]
      exact ih h
    | fault r => rw [hu] at h; cases h
    | refused r => rw [hu] at h; cases h

theorem run_zero (s : State) : Host.Core.run Sys2Proof.core 0 s = .next s := run_zero_of Sys2Proof.core s

theorem run_succ_of_step {s t : State} (k : Nat) (h : step s = .next t) :
    Host.Core.run Sys2Proof.core (k + 1) s = Host.Core.run Sys2Proof.core k t := run_succ_of Sys2Proof.core k h

theorem run_add {j : Nat} (k : Nat) {s t : State} (h : Host.Core.run Sys2Proof.core j s = .next t) :
    Host.Core.run Sys2Proof.core (j + k) s = Host.Core.run Sys2Proof.core k t := run_add_of Sys2Proof.core k h

/-! ## What an attempt leaves alone -/

/-- A poll that returns changes `SEQ`, `PENDING` and the host's log only. -/
theorem completePoll_frame {n : Int} {s t : State} (h : completePoll n s = .next t) :
    t = { s with seq := .idle, pending := none, hostLog := t.hostLog } := by
  unfold completePoll at h
  split at h
  next hp => cases h; rw [← hp]
  next => split at h <;> cases h; rfl

/-- An attempt makes one read, which alone touches the buffer, the stream and `LAST_COUNT`; `XTAL`, `DIAG`, `REFUSED`, the parameters, the
inbox and the writes to come are as before. -/
theorem attemptStep_frame {s t : State} (h : attemptStep s = .next t) :
    t.linkLog = s.linkLog ++ [.read readMax (ReadAnswer.count readMax (nextReadAnswer s))
        (ReadAnswer.delivered readMax (nextReadAnswer s))] ∧
      t.lastCount = ReadAnswer.count readMax (nextReadAnswer s) ∧
      t.scratch = (if 0 < ReadAnswer.count readMax (nextReadAnswer s) then
        Memory.writeRun s.scratch 0 (ReadAnswer.delivered readMax (nextReadAnswer s)) else s.scratch) ∧
      t.xtal = s.xtal ∧ t.diag = s.diag ∧ t.refused = s.refused ∧ t.params = s.params ∧ t.inbox = s.inbox ∧
      t.writeScript = s.writeScript := by
  unfold attemptStep at h
  split at h
  · cases h
  next r hr =>
    obtain ⟨h1, h2⟩ := streamRead_eq_some hr
    have hr2 : r.2.linkLog = s.linkLog ++ [.read readMax (ReadAnswer.count readMax (nextReadAnswer s))
          (ReadAnswer.delivered readMax (nextReadAnswer s))] ∧
        r.2.scratch = (if 0 < ReadAnswer.count readMax (nextReadAnswer s) then
          Memory.writeRun s.scratch 0 (ReadAnswer.delivered readMax (nextReadAnswer s)) else s.scratch) ∧
        r.2.xtal = s.xtal ∧ r.2.diag = s.diag ∧ r.2.refused = s.refused ∧ r.2.params = s.params ∧ r.2.inbox = s.inbox ∧
        r.2.writeScript = s.writeScript := by
      rw [h2]
      split <;> exact ⟨rfl, rfl, rfl, rfl, rfl, rfl, rfl, rfl⟩
    have fin : ∀ u : State, completePoll r.1 u = .next t →
        t.linkLog = u.linkLog ∧ t.lastCount = u.lastCount ∧ t.scratch = u.scratch ∧ t.xtal = u.xtal ∧ t.diag = u.diag ∧
          t.refused = u.refused ∧ t.params = u.params ∧ t.inbox = u.inbox ∧ t.writeScript = u.writeScript := by
      intro u hu
      rw [completePoll_frame hu]
      exact ⟨rfl, rfl, rfl, rfl, rfl, rfl, rfl, rfl, rfl⟩
    split at h
    · simpa [hr2, h1] using fin _ h
    · unfold failedAttempt at h
      simp only at h
      split at h
      · simpa [hr2, h1, sleep] using fin _ h
      · cases h
        simpa [sleep, h1] using hr2

/-- A request leaves the inbox, the parameters, `LAST_COUNT`, the readings to come and the time waited as they were. -/
theorem exec_frame {i : Instr} {s t : State} (h : exec i s = .next t) :
    t.inbox = s.inbox ∧ t.params = s.params ∧ t.lastCount = s.lastCount ∧ t.readScript = s.readScript ∧ t.sleeps = s.sleeps := by
  rcases exec_cases i s with ⟨r, h'⟩ | ⟨-, h'⟩
  · rw [h'] at h; cases h; exact ⟨rfl, rfl, rfl, rfl, rfl⟩
  · rw [h] at h'
    generalize ho : Host.Outcome.next t = o at h'
    cases h' <;> cases ho <;> exact ⟨rfl, rfl, rfl, rfl, rfl⟩

end Sys2Proof.Machine
end

