-- ==== Sys2Proof/Machine/Assembler.lean ====
section
/-! DEFINITION. The textual form of requests and link events (spec 30_encoding.md R84): `MNEMONIC name=value, ...`, with numbers in decimal or in
hexadecimal after `0x`, rationals `p/q`, byte sequences `[b0 b1 ...]` in hexadecimal, schemes by name, a config in braces with the field
names of 10_state.md R28; link events `@write w` and `@read r [bytes]`. It is the spec's notation for programs, not part of the block: no
step reads it (log 22). Arguments are taken in the order of R64. -/

namespace Sys2Proof.Machine

/-- The kinds of value a textual argument can have. -/
inductive TextKind where
  | nat | rat | scheme | bool | bytes | parms | cfg
deriving DecidableEq, Repr

/-- A value read: an argument, or a boolean of a config. -/
inductive TextValue where
  | arg (a : Arg)
  | bool (b : Bool)
deriving DecidableEq, Repr

/-- The opening brace of a config or a parms. -/
def openBrace : Char := Char.ofNat 123
/-- The closing brace. -/
def closeBrace : Char := Char.ofNat 125

/-- The mnemonic of each op-select code with its arguments' names and kinds (R62, R64). -/
def requestSyntax : List (String × OpCode × List (String × TextKind)) :=
  [("FREQ_WORD", 0x01, [("freqHz", .nat)]), ("IF_WORD", 0x02, [("ifHz", .nat)]), ("MOD_ENC", 0x03, [("scheme", .scheme)]),
   ("MOD_DEC", 0x04, [("word", .nat)]), ("CHAN_BW", 0x05, [("reqBw", .rat)]),
   ("DRATE_DEV", 0x06, [("baseRate", .rat), ("skew", .rat), ("modIndex", .rat), ("scheme", .scheme)]),
   ("EFF_RATE", 0x07, [("parms", .parms)]), ("BYTE_TIME", 0x08, [("parms", .parms)]), ("ENCODE_CONFIG", 0x09, [("cfg", .cfg)]),
   ("PARMS_SER", 0x0A, [("parms", .parms)]), ("PARMS_DES", 0x0B, [("s", .bytes)]), ("ENV_INIT", 0x0C, [("parms", .parms)]),
   ("ENV_STATUS_QUERY", 0x0D, []), ("ENV_TX_BLOCK", 0x0E, [("countdown", .nat), ("block", .bytes)]),
   ("ENV_PARSE", 0x0F, [("s", .bytes)]), ("STATUS_DECODE", 0x10, [("p", .bytes)]), ("RSSI_DBM", 0x11, [("r", .nat)]),
   ("FSM_NAME", 0x12, [("code", .nat)]), ("READ_WITH_TIMEOUT", 0x13, [("maxAttempts", .nat)]), ("SEND_INIT", 0x14, [("cfg", .cfg)]),
   ("QUERY_STATUS", 0x15, []),
   ("SEND_BLOCK", 0x16, [("countdown", .nat), ("block", .bytes), ("maxAttempts", .nat)]), ("SET_XTAL", 0x17, [("hz", .nat)])]

/-- The fields of a config with their kinds (10_state.md R28). -/
def cfgSyntax : List (String × TextKind) :=
  [("freqHz", .nat), ("ifHz", .nat), ("scheme", .scheme), ("baseRate", .rat), ("skew", .rat), ("modIndex", .rat), ("pktLen", .nat),
   ("varLen", .bool), ("fec", .bool), ("whitening", .bool), ("preambleSel", .nat)]

/-- The fields of a parms (10_state.md R27), written like a config. -/
def parmsSyntax : List (String × TextKind) :=
  ["freq", "ifw", "mod", "sync", "chanspc_m", "chanspc_e", "chanbw_m", "chanbw_e", "drate_m", "drate_e", "deviat_m", "deviat_e",
   "fecwhite", "pktlen", "pktmode", "preamble"].map fun name => (name, .nat)

/-- The schemes by name (00_scope.md R15). -/
def schemeNames : List (String × Scheme) :=
  [("FSK2", .fsk2), ("FSK4", .fsk4), ("OOK", .ook), ("MSK", .msk), ("GFSK", .gfsk), ("NONE", .none)]

/-! ## Reading -/

/-- Drop the spaces in front. -/
def skipSpaces : List Char → List Char := List.dropWhile (· = ' ')

/-- Read exactly the character `c`, spaces before it skipped. -/
def readChar (c : Char) (l : List Char) : Option (List Char) :=
  match skipSpaces l with
  | d :: rest => if d = c then some rest else none
  | [] => none

/-- The value of a digit in base 16. -/
def digitValue (c : Char) : Option Nat :=
  if '0' ≤ c ∧ c ≤ '9' then some (c.toNat - 48)
  else if 'A' ≤ c ∧ c ≤ 'F' then some (c.toNat - 55)
  else if 'a' ≤ c ∧ c ≤ 'f' then some (c.toNat - 87)
  else none

/-- Read the digits in front, in base `base`, onto `acc`; `seen` says whether one has been read. -/
def readDigits (base : Nat) (acc : Nat) (seen : Bool) : List Char → Option (Nat × List Char)
  | [] => if seen then some (acc, []) else none
  | c :: rest =>
    match digitValue c with
    | some d => if d < base then readDigits base (acc * base + d) true rest else if seen then some (acc, c :: rest) else none
    | none => if seen then some (acc, c :: rest) else none

/-- A natural, decimal or hexadecimal after `0x`. -/
def readNat (l : List Char) : Option (Nat × List Char) :=
  match skipSpaces l with
  | '0' :: 'x' :: rest => readDigits 16 0 false rest
  | rest => readDigits 10 0 false rest

/-- An integer, a natural or `-` and a natural. -/
def readInt (l : List Char) : Option (Int × List Char) :=
  match skipSpaces l with
  | '-' :: rest => (readNat rest).map fun r => (-(r.1 : Int), r.2)
  | rest => (readNat rest).map fun r => ((r.1 : Int), r.2)

/-- A rational `p/q`, or an integer. -/
def readRat (l : List Char) : Option (Rat × List Char) :=
  match readInt l with
  | none => none
  | some (p, '/' :: rest) =>
    match readNat rest with
    | some (q, rest') => if q = 0 then none else some ((p : Rat) / (q : Rat), rest')
    | none => none
  | some (p, rest) => some ((p : Rat), rest)

/-- A name: letters, digits and underscores. -/
def readName (l : List Char) : String × List Char :=
  let l := skipSpaces l
  (String.ofList (l.takeWhile fun c => c.isAlphanum || c = '_'), l.dropWhile fun c => c.isAlphanum || c = '_')

/-- The bytes up to the closing bracket. `fuel` bounds their number. -/
def readBytesTail : Nat → List Char → Option (List Byte × List Char)
  | 0, _ => none
  | fuel + 1, l =>
    match readChar ']' l with
    | some rest => some ([], rest)
    | none =>
      match readDigits 16 0 false (skipSpaces l) with
      | some (n, rest) =>
        if n ≤ 255 then (readBytesTail fuel rest).map fun r => (BitVec.ofNat 8 n :: r.1, r.2) else none
      | none => none

/-- A byte sequence `[b0 b1 ...]`. -/
def readBytes (l : List Char) : Option (List Byte × List Char) :=
  match readChar '[' l with
  | some rest => readBytesTail (rest.length + 1) rest
  | none => none

/-- A value of a kind that holds no fields. -/
def readSimple (kind : TextKind) (l : List Char) : Option (TextValue × List Char) :=
  match kind with
  | .nat => (readNat l).map fun r => (.arg (.nat r.1), r.2)
  | .rat => (readRat l).map fun r => (.arg (.rat r.1), r.2)
  | .bytes => (readBytes l).map fun r => (.arg (.bytes r.1), r.2)
  | .scheme => (schemeNames.lookup (readName l).1).map fun s => (.arg (.scheme s), (readName l).2)
  | .bool =>
    if (readName l).1 = "true" then some (.bool true, (readName l).2)
    else if (readName l).1 = "false" then some (.bool false, (readName l).2)
    else none
  | .parms | .cfg => none

/-- `name=value` pairs with the given names, separated by commas. -/
def readFields (value : TextKind → List Char → Option (TextValue × List Char)) :
    List (String × TextKind) → List Char → Option (List TextValue × List Char)
  | [], l => some ([], l)
  | (name, kind) :: fields, l =>
    if (readName l).1 = name then
      match readChar '=' (readName l).2 with
      | none => none
      | some l1 =>
        match value kind l1 with
        | none => none
        | some (v, l2) =>
          match fields with
          | [] => some ([v], l2)
          | _ :: _ =>
            match readChar ',' l2 with
            | none => none
            | some l3 => (readFields value fields l3).map fun r => (v :: r.1, r.2)
    else none

/-- A config from its fields' values. -/
def cfgOfValues : List TextValue → Option RadioLinkConfig
  | [.arg (.nat freqHz), .arg (.nat ifHz), .arg (.scheme scheme), .arg (.rat baseRate), .arg (.rat skew), .arg (.rat modIndex),
     .arg (.nat pktLen), .bool varLen, .bool fec, .bool whitening, .arg (.nat preambleSel)] =>
    some { freqHz, ifHz, scheme, baseRate, skew, modIndex, pktLen, varLen, fec, whitening, preambleSel }
  | _ => none

/-- A parms from its fields' values. -/
def parmsOfValues : List TextValue → Option RadioRegisterParms
  | [.arg (.nat freq), .arg (.nat ifw), .arg (.nat mod), .arg (.nat sync), .arg (.nat chanspc_m), .arg (.nat chanspc_e),
     .arg (.nat chanbw_m), .arg (.nat chanbw_e), .arg (.nat drate_m), .arg (.nat drate_e), .arg (.nat deviat_m),
     .arg (.nat deviat_e), .arg (.nat fecwhite), .arg (.nat pktlen), .arg (.nat pktmode), .arg (.nat preamble)] =>
    some { freq, ifw, mod, sync, chanspc_m, chanspc_e, chanbw_m, chanbw_e, drate_m, drate_e, deviat_m, deviat_e, fecwhite,
           pktlen, pktmode, preamble }
  | _ => none

/-- `{field=value, ...}` with the given fields. -/
def readBraced (fields : List (String × TextKind)) (l : List Char) : Option (List TextValue × List Char) :=
  match readChar openBrace l with
  | none => none
  | some l1 =>
    match readFields readSimple fields l1 with
    | none => none
    | some (vs, l2) => (readChar closeBrace l2).map fun l3 => (vs, l3)

/-- A value of any kind. -/
def readValue (kind : TextKind) (l : List Char) : Option (TextValue × List Char) :=
  match kind with
  | .cfg =>
    match readBraced cfgSyntax l with
    | some (vs, rest) => (cfgOfValues vs).map fun c => (.arg (.cfg c), rest)
    | none => none
  | .parms =>
    match readBraced parmsSyntax l with
    | some (vs, rest) => (parmsOfValues vs).map fun p => (.arg (.parms p), rest)
    | none => none
  | k => readSimple k l

/-- The arguments among the values read. -/
def argsOfValues (vs : List TextValue) : List Arg := vs.filterMap fun v => match v with | .arg a => some a | .bool _ => none

/-- The request a line of text stands for (R84). -/
def assembleRequest (text : String) : Option Encoded :=
  let l := text.toList
  match requestSyntax.lookup (readName l).1 with
  | none => none
  | some (op, fields) =>
    match readFields readValue fields (readName l).2 with
    | some (vs, rest) => if skipSpaces rest = [] then some (.request op (argsOfValues vs)) else none
    | none => none

/-- A link event of a program listing (R84). -/
inductive LinkEvent where
  | write (w : Int)
  | read (answer : ReadAnswer)
deriving DecidableEq, Repr

/-- The answer `@read r [bytes]` stands for: `r` bytes when `r > 0`, a non-positive count otherwise. -/
def readAnswerOf (r : Int) (bytes : List Byte) : Option ReadAnswer :=
  if 0 < r then if r = (bytes.length : Int) then some (.data bytes) else none
  else if bytes = [] then some (.noData r.natAbs) else none

/-- The link event a line of text stands for (R84). -/
def assembleLinkEvent (text : String) : Option LinkEvent :=
  match readChar '@' text.toList with
  | none => none
  | some l =>
    match (readName l).1, readInt (readName l).2 with
    | "write", some (w, rest) => if skipSpaces rest = [] then some (.write w) else none
    | "read", some (r, rest) =>
      match skipSpaces rest with
      | [] => (readAnswerOf r []).map .read
      | rest' =>
        match readBytes rest' with
        | some (bytes, rest'') => if skipSpaces rest'' = [] then (readAnswerOf r bytes).map .read else none
        | none => none
    | _, _ => none

/-! ## Loading a program -/

/-- One line of a program listing: a request, or an event of the script under it. -/
def loadLine (text : String) (s : State) : Option State :=
  match assembleLinkEvent text with
  | some (.write w) => some { s with writeScript := s.writeScript ++ [w] }
  | some (.read a) => some { s with readScript := s.readScript ++ [a] }
  | none => (assembleRequest text).map fun e => { s with inbox := s.inbox ++ [{ early := false, body := e }] }

/-- A program listing (R84): its requests queue in the inbox in order, its link events in the scripts. -/
def loadProgram : List String → State → Option State
  | [], s => some s
  | line :: lines, s =>
    match loadLine line s with
    | some t => loadProgram lines t
    | none => none

end Sys2Proof.Machine
end

