-- ==== Sys2Proof/Tests/Slice0.lean ====
section
/-! SUPPORT. The model's own tests and the witnesses of the statements' hypotheses. Expected results come from spec/95_test_vectors.md and from the
rules' own examples; the section or rule is named beside each group. The reference instantiation (00_scope.md R4) is used throughout. -/

namespace Sys2Proof.Tests

set_option Elab.async false

open Sys2Proof Sys2Proof.Machine Sys2Proof.Claims

/-! ## Helpers -/

/-- The answer the outcome adds last, if it is a next state. -/
def answerOf : Host.Outcome State Fault Refusal → Option Answer
  | .next t => match t.hostLog.getLast? with
    | some (.answer a) => some a
    | _ => none
  | _ => none

/-- The answer of one instruction at the reset state. -/
def ask (i : Instr) : Option Answer := answerOf (exec i State.reset)

def nextOf : Host.Outcome State Fault Refusal → Option State
  | .next t => some t
  | _ => none

/-- Config C1 of spec/95_test_vectors.md section 2.5. -/
def cfg1 : RadioLinkConfig :=
  { freqHz := 433920000, ifHz := 310000, scheme := .gfsk, baseRate := 38400, skew := 1, modIndex := 1 / 2, pktLen := 64, varLen := true,
    fec := true, whitening := true, preambleSel := 4 }

/-- Config C3: a packet length and a preamble that wrap, and a deviation exponent that wraps. -/
def cfg3 : RadioLinkConfig :=
  { freqHz := 868300000, ifHz := 152343, scheme := .fsk2, baseRate := 1200, skew := 1, modIndex := 1 / 2, pktLen := 300, varLen := true,
    fec := false, whitening := true, preambleSel := 9 }

/-- Config C2: a clamped 4FSK rate. -/
def cfg2 : RadioLinkConfig :=
  { freqHz := 434000000, ifHz := 0, scheme := .fsk4, baseRate := 500000, skew := 1, modIndex := 1 / 2, pktLen := 255, varLen := false,
    fec := false, whitening := false, preambleSel := 2 }

/-- The parms of C1. -/
def parms1 : RadioRegisterParms :=
  { freq := 0x10B071, ifw := 12, mod := 1, sync := 0, chanspc_m := 0, chanspc_e := 0, chanbw_m := 0, chanbw_e := 3, drate_m := 131,
    drate_e := 10, deviat_m := 4, deviat_e := 3, fecwhite := 3, pktlen := 64, pktmode := 1, preamble := 4 }

/-- The payload of C1. -/
def payload1 : List Byte :=
  [0x10, 0xB0, 0x71, 0x0C, 0x01, 0x00, 0x00, 0x00, 0x00, 0x03, 0x83, 0x0A, 0x04, 0x03, 0x03, 0x40, 0x01, 0x04]

/-- Every field at its largest value. -/
def parmsMax : RadioRegisterParms :=
  { freq := 16777215, ifw := 31, mod := 7, sync := 7, chanspc_m := 255, chanspc_e := 3, chanbw_m := 3, chanbw_e := 3, drate_m := 255,
    drate_e := 15, deviat_m := 7, deviat_e := 7, fecwhite := 255, pktlen := 255, pktmode := 1, preamble := 7 }

def bytesTo (n : Nat) : List Byte := List.replicate n 0x55

/-- The status reply's payload of section 2.7, first row. -/
def status1 : List Byte := [0x00, 0x14, 0xFE, 0x9E, 0xD0, 0x0D, 0x12, 0x34, 0x50, 0x2A, 0x00, 0x85]

/-- The reset state with a link script. -/
def scripted (writes : List Int) (reads : List ReadAnswer) : State := { State.reset with writeScript := writes, readScript := reads }

/-- A poll in flight with `k` attempts left and the given answers to come. -/
def polling (p : Pending) (k : Nat) (reads : List ReadAnswer) : State :=
  { State.reset with seq := .polling, attemptsLeft := k, pending := some p, readScript := reads }

/-! ## Ill-formed instructions, one for each check of `Instr.wellFormed` (30_encoding.md R64, R66) -/

theorem test_illFormed_modDec : (Instr.modDec 8).wellFormed = false := by decide
theorem test_illFormed_parmsSer : (Instr.parmsSer { parms1 with ifw := 32 }).wellFormed = false := by decide
theorem test_illFormed_envInit : (Instr.envInit { parms1 with freq := 16777216 }).wellFormed = false := by decide
theorem test_illFormed_parmsDes : (Instr.parmsDes (bytesTo 17)).wellFormed = false := by decide
theorem test_illFormed_envTxBlock : (Instr.envTxBlock 256 []).wellFormed = false := by decide
theorem test_illFormed_sendBlock : (Instr.sendBlock 256 [] 1).wellFormed = false := by decide
theorem test_illFormed_statusDecode : (Instr.statusDecode (bytesTo 11)).wellFormed = false := by decide
theorem test_illFormed_rssiDbm : (Instr.rssiDbm 256).wellFormed = false := by decide
theorem test_illFormed_fsmName : (Instr.fsmName 32).wellFormed = false := by decide
theorem test_illFormed_cmdInit : (Instr.cmdInit (bytesTo 256)).wellFormed = false := by decide +kernel
theorem test_illFormed_cmdStatusQuery : (Instr.cmdStatusQuery (bytesTo 256)).wellFormed = false := by decide +kernel
theorem test_illFormed_cmdTxBlock : (Instr.cmdTxBlock (bytesTo 256)).wellFormed = false := by decide +kernel
theorem test_wellFormed_boundaries :
    (Instr.modDec 7).wellFormed = true ∧ (Instr.parmsSer parmsMax).wellFormed = true ∧ (Instr.sendBlock 255 [] 0).wellFormed = true ∧
      (Instr.rssiDbm 255).wellFormed = true ∧ (Instr.fsmName 31).wellFormed = true ∧ (Instr.cmdInit (bytesTo 255)).wellFormed = true := by
  decide +kernel

/-! ## Decoding: the code of each operation in binary (30_encoding.md R62, R64), the envelopes byte by byte (R67) -/

theorem test_decode_frequency :
    decodeRequest 0b00001#5 [.nat 433920000] = .ok (.freqWord 433920000) ∧
      decodeRequest 0b00010#5 [.nat 310000] = .ok (.ifWord 310000) := ⟨rfl, rfl⟩
theorem test_decode_modulation :
    decodeRequest 0b00011#5 [.scheme .gfsk] = .ok (.modEnc .gfsk) ∧ decodeRequest 0b00100#5 [.nat 8] = .ok (.modDec 8) := ⟨rfl, rfl⟩
theorem test_decode_bandwidth : decodeRequest 0b00101#5 [.rat 300000] = .ok (.chanBw 300000) := rfl
theorem test_decode_rate :
    decodeRequest 0b00110#5 [.rat 9600, .rat 1, .rat (1 / 2), .scheme .fsk2] = .ok (.drateDev 9600 1 (1 / 2) .fsk2) ∧
      decodeRequest 0b00111#5 [.parms parms1] = .ok (.effRate parms1) ∧
      decodeRequest 0b01000#5 [.parms parms1] = .ok (.byteTime parms1) := ⟨rfl, rfl, rfl⟩
theorem test_decode_config :
    decodeRequest 0b01001#5 [.cfg cfg1] = .ok (.encodeConfig cfg1) ∧
      decodeRequest 0b01010#5 [.parms parms1] = .ok (.parmsSer parms1) ∧
      decodeRequest 0b01011#5 [.bytes payload1] = .ok (.parmsDes payload1) := ⟨rfl, rfl, rfl⟩
theorem test_decode_envelope :
    decodeRequest 0b01100#5 [.parms parms1] = .ok (.envInit parms1) ∧ decodeRequest 0b01101#5 [] = .ok .envStatusQuery ∧
      decodeRequest 0b01110#5 [.nat 5, .bytes [0x55]] = .ok (.envTxBlock 5 [0x55]) ∧
      decodeRequest 0b01111#5 [.bytes [0x02, 0x00]] = .ok (.envParse [0x02, 0x00]) := ⟨rfl, rfl, rfl, rfl⟩
theorem test_decode_status :
    decodeRequest 0b10000#5 [.bytes status1] = .ok (.statusDecode status1) ∧ decodeRequest 0b10001#5 [.nat 208] = .ok (.rssiDbm 208) ∧
      decodeRequest 0b10010#5 [.nat 13] = .ok (.fsmName 13) := ⟨rfl, rfl, rfl⟩
theorem test_decode_transactions :
    decodeRequest 0b10011#5 [.nat 3] = .ok (.readWithTimeout 3) ∧ decodeRequest 0b10100#5 [.cfg cfg1] = .ok (.sendInit cfg1) ∧
      decodeRequest 0b10101#5 [] = .ok .queryStatus ∧
      decodeRequest 0b10110#5 [.nat 0, .bytes [0xDE], .nat 3] = .ok (.sendBlock 0 [0xDE] 3) ∧
      decodeRequest 0b10111#5 [.nat 27000000] = .ok (.setXtal 27000000) := ⟨rfl, rfl, rfl, rfl, rfl⟩
theorem test_decode_commands :
    (∀ p, p = Params.reference → decodeEnvelope p (0x01 :: 0x12 :: payload1) = .ok (.cmdInit payload1)) ∧
      decodeEnvelope Params.reference [0x02, 0x00] = .ok (.cmdStatusQuery []) ∧
      decodeEnvelope Params.reference [0x03, 0x02, 0x09, 0x00] = .ok (.cmdTxBlock [0x09, 0x00]) := by
  refine ⟨?_, rfl, rfl⟩
  rintro _ rfl
  rfl
theorem test_decode_rejects_by_name :
    decodeRequest 0b00000#5 [] = .error .reservedOp ∧ decodeRequest 0b11000#5 [.nat 1] = .error .reservedOp ∧
      decodeRequest 0b11111#5 [] = .error .reservedOp ∧ decodeRequest 0b00001#5 [] = .error .wrongArgs ∧
      decodeEnvelope Params.reference [0x01] = .error .envShort ∧
      decodeEnvelope Params.reference [0x07, 0x00] = .error .envUnknownType ∧
      decodeEnvelope Params.reference [0x01, 0x12, 0x10] = .error .envIncomplete := ⟨rfl, rfl, rfl, rfl, rfl, rfl, rfl⟩

/-- A table word, as the first instruction after reset: FREQ_WORD of 0 Hz answers 0 (section 2.1). -/
theorem test_tableWord_runs_first :
    decodeTableWord 8 0x01 = some (.freqWord 0) ∧
      answerOf (step (State.reset.withFetchWord 8 0x01)) = some (.result (.word 0)) := ⟨rfl, rfl⟩
theorem test_tableWord_setXtal_zero : answerOf (step (State.reset.withFetchWord 8 0x17)) = some (.refused .xtalZero) := rfl

/-! ## The textual form (30_encoding.md R84) -/

theorem test_assemble_request :
    assembleRequest "SEND_BLOCK countdown=0, block=[DE AD], maxAttempts=3" =
      some (.request 0x16 [.nat 0, .bytes [0xDE, 0xAD], .nat 3]) := by decide +kernel
theorem test_assemble_link :
    assembleLinkEvent "@read 3 [01 00 00]" = some (.read (.data [1, 0, 0])) ∧ assembleLinkEvent "@write -1" = some (.write (-1)) := by
  decide +kernel

/-! ## Number primitives (00_scope.md R8 to R12) -/

theorem test_round_ties_away : roundQ (513 / 2) = 257 ∧ roundQ (-1 / 2) = -1 := by decide +kernel
theorem test_flog2 : flog2 1 = 0 ∧ flog2 (3 / 4) = -1 ∧ flog2 (1 / 4) = -2 ∧ flog2 1023 = 9 := by decide +kernel
theorem test_mask_negative : mask 3 (-2) = 6 := by decide

/-! ## Frequency, modulation, bandwidth (sections 2.1 to 2.3) -/

theorem test_freqWord_floor : ask (.freqWord 433920000) = some (.result (.word 0x10B071)) := by decide +kernel
theorem test_freqWord_wraps : ask (.freqWord 6656000397) = some (.result (.word 1)) := by decide +kernel
theorem test_ifWord_floor : ask (.ifWord 152343) = some (.result (.word 5)) := by decide +kernel
theorem test_ifWord_wraps : ask (.ifWord 1000000) = some (.result (.word 7)) := by decide +kernel
theorem test_modEnc_none_is_2fsk : ask (.modEnc .none) = some (.result (.word 0)) := by decide +kernel
theorem test_modEnc_msk : ask (.modEnc .msk) = some (.result (.word 7)) := by decide +kernel
theorem test_modDec_4fsk : ask (.modDec 4) = some (.result (.scheme .fsk4)) := by decide +kernel
theorem test_modDec_unmapped : ask (.modDec 5) = some (.result (.scheme .none)) := by decide +kernel
theorem test_chanBw_strict : ask (.chanBw 650000) = some (.result (.chanBw 0 2)) := by decide +kernel
theorem test_chanBw_example : ask (.chanBw 300000) = some (.result (.chanBw 1 2)) := by decide +kernel

/-! ## Rate and deviation (section 2.4) -/

theorem test_drateDev_tie_rounds_up :
    ask (.drateDev (104203125 / 16384) 1 1 .fsk2) =
      some (.result (.drd
        { rate := 104203125 / 16384, dev := 104203125 / 16384, reqBw := 104203125 / 4096, clamped := false, chanbw_e := 3, chanbw_m := 3,
          drate_e := 8, drate_m := 1, deviat_e := 2, deviat_m := 0 })) := by decide +kernel
theorem test_drateDev_clamp :
    nextOf (exec (.drateDev 500000 1 (1 / 2) .fsk4) State.reset) =
      some (answered (.drd
        { rate := 300000, dev := 150000, reqBw := 900000, clamped := true, chanbw_e := 0, chanbw_m := 0, drate_e := 13, drate_m := 122,
          deviat_e := 6, deviat_m := 4 }) { State.reset with diag := [.fourFskClamp 500000] }) := by decide +kernel
theorem test_effRate : ask (.effRate parms1) = some (.result (.rational (78609375 / 2048))) := by decide +kernel
theorem test_effRate_smallest : ask (.effRate zeroParms) = some (.result (.rational (203125 / 8192))) := by decide +kernel
theorem test_byteTime_fec_doubles : ask (.byteTime parms1) = some (.result (.rational (2097152 / 5031))) := by decide +kernel
theorem test_byteTime_4fsk_halves :
    ask (.byteTime { zeroParms with drate_m := 131, drate_e := 8, mod := 4, fecwhite := 2 }) =
      some (.result (.rational (2097152 / 5031))) := by decide +kernel

/-! ## Configuration and payload (section 2.5) -/

theorem test_encodeConfig_c1 : ask (.encodeConfig cfg1) = some (.result (.parms parms1)) := by decide +kernel
theorem test_encodeConfig_c3_wraps :
    ask (.encodeConfig cfg3) =
      some (.result (.parms
        { freq := 0x21656A, ifw := 5, mod := 0, sync := 0, chanspc_m := 0, chanspc_e := 0, chanbw_m := 3, chanbw_e := 3, drate_m := 131,
          drate_e := 5, deviat_m := 4, deviat_e := 6, fecwhite := 2, pktlen := 44, pktmode := 1, preamble := 1 })) := by decide +kernel
theorem test_parmsSer : ask (.parmsSer parms1) = some (.result (.bytes payload1)) := by decide +kernel
theorem test_parmsSer_refused : ask (.parmsSer { parms1 with ifw := 32 }) = some (.refused .argRange) := by decide +kernel
/-- Byte 3 is 0xEC: bits 7:5 are discarded. -/
theorem test_parmsDes_discards :
    ask (.parmsDes [0x10, 0xB0, 0x71, 0xEC, 0x01, 0x00, 0x00, 0x00, 0x00, 0x03, 0x83, 0x0A, 0x04, 0x03, 0x03, 0x40, 0x01, 0x04]) =
      some (.result (.parms parms1)) := by decide +kernel
theorem test_parmsDes_refused : ask (.parmsDes (bytesTo 19)) = some (.refused .argRange) := by decide +kernel

/-! ## Envelopes (section 2.6) -/

theorem test_envInit : ask (.envInit parms1) = some (.result (.bytes (0x01 :: 0x12 :: payload1))) := by decide +kernel
theorem test_envStatusQuery : ask .envStatusQuery = some (.result (.bytes [0x02, 0x00])) := by decide +kernel
theorem test_envTxBlock :
    ask (.envTxBlock 0 [0xDE, 0xAD, 0xBE, 0xEF]) = some (.result (.bytes [0x03, 0x06, 0x04, 0x00, 0xDE, 0xAD, 0xBE, 0xEF])) := by
  decide +kernel
theorem test_envTxBlock_priority : ask (.envTxBlock 256 (bytesTo 254)) = some (.refused .argRange) := by decide +kernel
theorem test_envParse_trailing :
    ask (.envParse [0x07, 0x01, 0xAA, 0xBB]) =
      some (.result (.parsed { kind := .unknown, type := some 0x07, len := some 1, payload := [0xAA], complete := true,
                               trailing := 1 })) := by decide +kernel
theorem test_envParse_incomplete :
    ask (.envParse [0x01, 0x12, 0x10, 0xB0]) =
      some (.result (.parsed { kind := .init, type := some 0x01, len := some 18, payload := [0x10, 0xB0], complete := false,
                               trailing := 0 })) := by decide +kernel
theorem test_cmdInit :
    ask (.cmdInit payload1) =
      some (.result (.command { kind := .init, type := some 0x01, len := some 18, payload := payload1, complete := true, trailing := 0 }
        (.init (some parms1)))) := by decide +kernel
theorem test_cmdStatusQuery :
    ask (.cmdStatusQuery []) =
      some (.result (.command { kind := .statusQuery, type := some 0x02, len := some 0, payload := [], complete := true, trailing := 0 }
        .statusQuery)) := by decide +kernel
/-- blockSize is not checked against the length. -/
theorem test_cmdTxBlock :
    ask (.cmdTxBlock [0x09, 0x00]) =
      some (.result (.command { kind := .txBlock, type := some 0x03, len := some 2, payload := [0x09, 0x00], complete := true, trailing := 0 }
        (.txBlock (some { blockSize := 9, blockCountdown := 0, blockBytes := [] })))) := by decide +kernel

/-! ## Status (section 2.7) -/

theorem test_statusDecode :
    ask (.statusDecode status1) =
      some (.result (.status
        { partNum := 0, version := 0x14, freqOffRaw := 0xFE, freqOff := -2, crcOk := true, lqi := 30, rssiRaw := 0xD0, rssiDbm := -98,
          fsmState := 13, worTimer := 4660, flagsRaw := 0x50, cs := true, pqt := false, cca := true, sfd := false, gdo2 := false,
          gdo0 := false, vcoDac := 0x2A, txUnderflow := false, txCount := 0, rxOverflow := true, rxCount := 5 })) := by decide +kernel
theorem test_statusDecode_second :
    ask (.statusDecode [0x11, 0x22, 0x80, 0x7F, 0x80, 0x17, 0xFF, 0x00, 0x08, 0x00, 0x7F, 0x80]) =
      some (.result (.status
        { partNum := 0x11, version := 0x22, freqOffRaw := 0x80, freqOff := -128, crcOk := false, lqi := 127, rssiRaw := 0x80,
          rssiDbm := -138, fsmState := 23, worTimer := 65280, flagsRaw := 0x08, cs := false, pqt := false, cca := false, sfd := true,
          gdo2 := false, gdo0 := false, vcoDac := 0, txUnderflow := false, txCount := 127, rxOverflow := true, rxCount := 0 })) := by
  decide +kernel
theorem test_rssiDbm_127 : ask (.rssiDbm 127) = some (.result (.rational (-21 / 2))) := by decide +kernel
theorem test_rssiDbm_128 : ask (.rssiDbm 128) = some (.result (.rational (-138))) := by decide +kernel
theorem test_fsmName_22 : ask (.fsmName 22) = some (.result (.text "TXFIFO_UNDERFLOW")) := by decide +kernel
theorem test_fsmName_23 : ask (.fsmName 23) = some (.result (.text "undefined")) := by decide +kernel

/-! ## Transactions (section 2.8) -/

theorem test_readWithTimeout_starts :
    nextOf (exec (.readWithTimeout 3) State.reset) =
      some { State.reset with seq := .polling, attemptsLeft := 3, pending := some .readWithTimeout } := by decide +kernel
/-- A reply of 20 bytes delivers 14; the other 6 stay in the stream. -/
theorem test_attempt_delivers_fourteen :
    (nextOf (attemptStep (polling .readWithTimeout 5 [.data (bytesTo 20)]))).map
        (fun t => (t.lastCount, t.seq, t.readScript, t.scratch.length, t.sleeps)) =
      some (14, .idle, [.data (bytesTo 6)], 14, 0) := by decide +kernel
theorem test_sendInit_writes :
    (nextOf (exec (.sendInit cfg1) (scripted [20] []))).map (fun t => (t.pending, t.attemptsLeft, t.linkLog, t.hostLog)) =
      some (some (.sendInit 20 20), 3, [.write (0x01 :: 0x12 :: payload1) 20], []) := by decide +kernel
theorem test_sendInit_short_write :
    answerOf (attemptStep (polling (.sendInit 12 20) 3 [.data [0x01, 0x00, 0x00]])) = some (.result (.count 0)) := by decide +kernel
theorem test_queryStatus_writes :
    (nextOf (exec .queryStatus (scripted [5] []))).map (fun t => (t.pending, t.scratch)) =
      some (some (.queryStatus 2 2), [(0, 0x02), (1, 0x00)]) := by decide +kernel
/-- A count of 11 fails with that count; its bytes 12 and 13 were written before, so no free byte is read. -/
theorem test_queryStatus_eleven :
    answerOf (attemptStep { polling (.queryStatus 2 2) 1 [.data (bytesTo 11)] with
      scratch := [(11, 0), (12, 0), (13, 0x85)] }) = some (.result (.fail 11)) := by decide +kernel
theorem test_sendBlock_writes :
    (nextOf (exec (.sendBlock 0 [0xDE, 0xAD, 0xBE, 0xEF] 3) (scripted [8] []))).map (fun t => (t.pending, t.attemptsLeft, t.linkLog)) =
      some (some (.sendBlock 8 8), 3, [.write [0x03, 0x06, 0x04, 0x00, 0xDE, 0xAD, 0xBE, 0xEF] 8]) := by decide +kernel
theorem test_sendBlock_priority : ask (.sendBlock 0 (bytesTo 254) 0) = some (.refused .blockTooLong) := by decide +kernel
theorem test_setXtal :
    nextOf (exec (.setXtal 27000000) State.reset) = some (answered .ack { State.reset with xtal := 27000000 }) := by decide +kernel
theorem test_setXtal_zero : ask (.setXtal 0) = some (.refused .xtalZero) := by decide +kernel
/-- A short write has delivered its first bytes (20_memory.md R48); of a negative count the model says nothing. -/
theorem test_sent_short_write :
    LinkCall.sent (.write [1, 2, 3] 2) = some [1, 2] ∧ LinkCall.sent (.write [1, 2, 3] (-1)) = none := by decide
/-- A failed attempt passes its count through (section 2.8, third row). -/
theorem test_failed_attempt_passes_count :
    (nextOf (attemptStep (polling .readWithTimeout 1 [.noData 1]))).map (fun t => (t.hostLog, t.sleeps, t.attemptsLeft)) =
      some ([.answer (.result (.count (-1)))], 1, 0) := by decide +kernel
/-- A request during a poll is refused (section 2.9). -/
theorem test_busy :
    answerOf (step { polling .readWithTimeout 3 [] with inbox := [{ early := true, body := .request 0x01 [.nat 0] }] }) =
      some (.refused .busy) := by decide +kernel

/-! ## Witnesses: states and operands that meet the hypotheses of each statement -/

theorem reference_valid : Params.reference.Valid := by
  constructor <;> decide +kernel

/-- The hypotheses most statements about one operation share. -/
theorem reset_ready : State.reset.pending = none ∧ 0 < State.reset.xtal ∧ State.reset.params.Valid := ⟨rfl, by decide, reference_valid⟩

/-- A poll of QUERY_STATUS in flight, with one attempt left: the smallest budget. -/
def inFlight : State := polling (.queryStatus 2 2) 1 [.noData 0]

theorem inFlight_inv : inFlight.Inv := by
  constructor <;> simp [inFlight, polling, State.reset, State.resetWith, Memory.wf, Pending.Bounded, reference_valid]
  · decide
  · decide

theorem witness_InvariantHoldsAtReset : Params.reference.Valid := reference_valid
/-- A step of a poll in flight, the request that comes early being refused. -/
theorem witness_StepKeepsTheInvariant : ∃ s t : State, s.Inv ∧ s.seq = .polling ∧ step s = .next t := by
  refine ⟨{ inFlight with inbox := [{ early := true, body := .request 0x0D [] }] }, _, ?_, rfl, rfl⟩
  obtain ⟨h1, h2, h3, h4, h5, h6, h7, h8⟩ := inFlight_inv
  exact ⟨h1, h2, h3, h4, h5, h6, h7, h8⟩
theorem witness_NoStepFaults : inFlight.Inv := inFlight_inv
theorem witness_EveryPollEnds : inFlight.Inv ∧ inFlight.seq = .polling := ⟨inFlight_inv, rfl⟩
/-- An early request at the head counts, one that is not early does not, nor does what stands behind it. -/
theorem test_early_arrivals_counted :
    ([true, false, true].map fun early => ({ early := early, body := .request 0x0D [] } : Arrival)).takeWhile Arrival.early =
      [{ early := true, body := .request 0x0D [] }] := by decide
theorem witness_StepRunsTheDecodedInstruction :
    (∃ (s : State) (a : Arrival) (i : Instr), s.inbox = [a] ∧ (s.seq = .idle ∨ a.early = true) ∧ decode s.params a.body = .ok i) ∧
      (∃ (s : State) (a : Arrival) (i : Instr), s.inbox = [a] ∧ s.seq = .polling ∧ a.early = true ∧ decode s.params a.body = .ok i) ∧
      ∃ i, decodeTableWord 8 0x17 = some i :=
  ⟨⟨{ State.reset with inbox := [{ early := false, body := .envelope [0x02, 0x00] }] }, _, _, rfl, .inl rfl, rfl⟩,
    ⟨{ inFlight with inbox := [{ early := true, body := .request 0x01 [.nat 0] }] }, _, _, rfl, rfl, rfl, rfl⟩, _, rfl⟩
theorem witness_StepIsAnAttemptOrWaits :
    (inFlight.seq = .polling ∧ ∀ a rest, inFlight.inbox = a :: rest → a.early = false) ∧
      State.reset.seq = .idle ∧ State.reset.inbox = [] := ⟨⟨rfl, by rintro _ _ ⟨⟩⟩, rfl, rfl⟩
theorem witness_DecodeOfEncodeIsTheInstruction :
    Params.reference.Valid ∧ (Instr.parmsSer parmsMax).wellFormed = true ∧ (Instr.cmdTxBlock (bytesTo 255)).wellFormed = true ∧
      ∃ bytes, encode Params.reference (.cmdTxBlock (bytesTo 255)) = .envelope bytes := ⟨reference_valid, by decide, by decide +kernel, _, rfl⟩
theorem witness_EncodeOfDecodeIsTheForm :
    decodeRequest 0x17 [.nat 0] = .ok (.setXtal 0) ∧
      decodeEnvelope Params.reference [0x03, 0x01, 0xAA, 0xBB] = .ok (.cmdTxBlock [0xAA]) := ⟨rfl, rfl⟩
theorem witness_ReservedCodeIsRefused :
    (∃ (s : State) (a : Arrival), s.inbox = [a] ∧ a.body = .request 0x00 [] ∧ s.seq = .idle ∧ s.pending = none) ∧
      (∃ (s : State) (a : Arrival), s.inbox = [a] ∧ a.body = .request 0x18 [.nat 9] ∧ s.seq = .idle ∧ s.pending = none) ∧
      (0x18#5 ≤ 0x1F#5) ∧ (0x01#5 ≤ 0x17#5) :=
  ⟨⟨{ State.reset with inbox := [{ early := false, body := .request 0x00 [] }] }, _, rfl, rfl, rfl, rfl⟩,
    ⟨{ State.reset with inbox := [{ early := false, body := .request 0x18 [.nat 9] }] }, _, rfl, rfl, rfl, rfl⟩, by decide, by decide⟩
/-- The early requests: a decoded one, a reserved code, a tuple that is not the code's. -/
theorem witness_RequestInFlightIsRefusedAsBusy :
    ((∃ p op args, encode p .queryStatus = .request op args) ∧ inFlight.pending ≠ none) ∧
      ∀ body ∈ [Encoded.request 0x15 [], .request 0x00 [], .request 0x18 [.nat 9], .request 0x01 []],
        ∃ (s : State) (a : Arrival) (op : OpCode) (args : List Arg), s.inbox = [a] ∧ a.early = true ∧ a.body = body ∧
          a.body = .request op args ∧ s.pending ≠ none := by
  refine ⟨⟨⟨Params.reference, _, _, rfl⟩, by decide⟩, ?_⟩
  have early : ∀ op args, ∃ (s : State) (a : Arrival) (op' : OpCode) (args' : List Arg), s.inbox = [a] ∧ a.early = true ∧
      a.body = .request op args ∧ a.body = .request op' args' ∧ s.pending ≠ none := fun op args =>
    ⟨{ inFlight with inbox := [{ early := true, body := .request op args }] }, _, op, args, rfl, rfl, rfl, rfl, nofun⟩
  simp only [List.forall_mem_cons]
  exact ⟨early _ _, early _ _, early _ _, early _ _, by simp⟩
/-- `REF_BUSY` comes before `REF_RESERVED_OP` (60_exceptions.md R156). -/
theorem test_busy_before_reserved :
    answerOf (step { polling .readWithTimeout 3 [] with inbox := [{ early := true, body := .request 0x18 [] }] }) =
      some (.refused .busy) := by decide +kernel
theorem witness_RefusalChangesOnlyTheMark :
    (∃ t : State, exec (.setXtal 0) State.reset = .next t ∧ t.hostLog = State.reset.hostLog ++ [.answer (.refused .xtalZero)] ∧
      State.reset.refused = false ∧ t.refused = true) ∧
      ∃ s t : State, step s = .next t ∧ s.refused = true :=
  ⟨⟨_, rfl, rfl, rfl, rfl⟩, { State.reset with refused := true }, _, rfl, rfl⟩
theorem witness_FirstReasonInPriorityOrderRefuses :
    State.reset.params.Valid ∧ refusalHolds (.envTxBlock 256 (bytesTo 254)) State.reset .argRange ∧
      refusalHolds (.envTxBlock 255 (bytesTo 254)) State.reset .blockTooLong ∧
      refusalHolds (.sendBlock 0 (bytesTo 254) 0) State.reset .attemptsZero :=
  ⟨reference_valid, show 255 < 256 by decide, show 253 < (bytesTo 254).length by decide +kernel, rfl⟩
theorem witness_FreqWordIsTheFloorModulo24Bits : State.reset.pending = none ∧ 0 < State.reset.xtal := ⟨rfl, by decide⟩
theorem witness_IfWordIsTheFloorModulo32 : State.reset.pending = none ∧ 0 < State.reset.xtal := ⟨rfl, by decide⟩
theorem witness_FrequencyWordsAreMonotoneBelowTheirWraps :
    0 < 26000000 ∧ 6655999998 ≤ 6655999999 ∧ 6655999999 < 26000000 * 2 ^ 8 ∧ 32 * 812499 < 26000000 ∧ 32 * 812500 = 26000000 := by decide
theorem witness_ModEncReturnsTheTableWord : State.reset.pending = none := rfl
theorem witness_ModDecReturnsTheTableScheme : State.reset.pending = none := rfl
theorem witness_ModulationRoundTrip :
    State.reset.pending = none ∧ Scheme.msk ≠ .none ∧ (0 : Nat) ∈ [0, 1, 3, 4, 7] ∧ (7 : Nat) ∈ [0, 1, 3, 4, 7] := by decide
theorem witness_ChanBwIsTheFirstThresholdBelow : State.reset.pending = none ∧ State.reset.params.Valid := ⟨rfl, reference_valid⟩
theorem witness_WiderRequirementNeverSelectsNarrower : Params.reference.Valid ∧ (812500 : ℚ) < 812501 := ⟨reference_valid, by norm_num⟩
theorem witness_ChanBwStepsAtTheThresholds :
    Params.reference.Valid ∧ 4 * 0 + 0 ≤ 14 ∧ 4 * 3 + 2 ≤ 14 ∧ chanBw referenceBwThreshold (203125 / 3) = (3, 3) ∧
      chanBw referenceBwThreshold 67709 = (3, 2) :=
  ⟨reference_valid, by decide, by decide, by decide +kernel, by decide +kernel⟩
theorem witness_DrateDevEncodesRateAndDeviation :
    State.reset.pending = none ∧ 0 < State.reset.xtal ∧ rateOf .fsk2 (0 * 1) ≤ 0 ∧
      (0 < rateOf .fsk4 (500000 * 1) ∧ rateOf .fsk4 (500000 * 1) * 0 ≤ 0) ∧
      0 < rateOf .fsk2 (-9600 * -1) ∧ 0 < rateOf .fsk2 (-9600 * -1) * (1 / 2) := by decide +kernel
theorem witness_FourFskRateIsClampedAt300000 :
    State.reset.pending = none ∧ (0 : ℚ) < 1 / 2 ∧ (300000 : ℚ) < 300001 * 1 ∧ (0 : ℚ) < 300000 * 1 ∧ (300000 * 1 : ℚ) ≤ 300000 ∧
      Scheme.fsk2 ≠ .fsk4 := by decide +kernel
theorem witness_ExponentRangeAndMantissaOverflowBand :
    0 < 26000000 ∧ (0 : ℚ) < 12690 ∧ (0 : ℚ) < 6345 ∧ rateMantissa 26000000 12690 = 256 ∧ devMantissa 26000000 6345 = 8 := by
  decide +kernel
theorem witness_DecodedRateIsCloseInTheDomain :
    ∃ (t : State) (d : DrdResult) (parms : RadioRegisterParms), 0 < State.reset.xtal ∧
      exec (.drateDev 9600 1 (1 / 2) .fsk2) State.reset = .next t ∧
      t.hostLog = State.reset.hostLog ++ [.answer (.result (.drd d))] ∧
      0 ≤ rateExponent State.reset.xtal d.rate ∧ rateExponent State.reset.xtal d.rate ≤ 15 ∧
      rateMantissa State.reset.xtal d.rate ≤ 255 ∧ parms.drate_m = d.drate_m ∧ parms.drate_e = d.drate_e := by
  refine ⟨_, drateDev referenceBwThreshold 26000000 (9600 * 1) (1 / 2) .fsk2, { zeroParms with drate_m := 131, drate_e := 8 }, by decide,
    unlessRefused_effect rfl (by decide +kernel), rfl, ?_, ?_, ?_, ?_, ?_⟩ <;> decide +kernel
theorem witness_EffRateIsTheInverseFormula : State.reset.pending = none ∧ 0 < State.reset.xtal := ⟨rfl, by decide⟩
theorem witness_ByteTimeHalvesFor4fskAndDoublesForFec : State.reset.pending = none ∧ 0 < State.reset.xtal := ⟨rfl, by decide⟩
theorem witness_EncodeConfigFillsEveryField :
    State.reset.pending = none ∧ rateOf cfg2.scheme (0 * cfg2.skew) ≤ 0 ∧ rateOf cfg2.scheme (cfg2.baseRate * cfg2.skew) * 0 ≤ 0 ∧
      0 < rateOf cfg2.scheme (cfg2.baseRate * cfg2.skew) ∧ 0 < rateOf cfg2.scheme (cfg2.baseRate * cfg2.skew) * cfg2.modIndex := by
  decide +kernel
theorem witness_EncodedConfigIsInsideItsWidths :
    ∃ (t : State) (parms : RadioRegisterParms), State.reset.params.Valid ∧ exec (.encodeConfig cfg3) State.reset = .next t ∧
      t.hostLog = State.reset.hostLog ++ [.answer (.result (.parms parms))] :=
  ⟨_, _, reference_valid, unlessRefused_effect rfl (by decide +kernel), rfl⟩
theorem witness_ParmsSerLaysOutEighteenBytes :
    State.reset.pending = none ∧ parmsInWidth parmsMax = true ∧ parmsInWidth { parmsMax with freq := 16777216 } = false := by decide
theorem witness_ParmsDesDiscardsHighBits : State.reset.pending = none ∧ (bytesTo 17).length ≠ 18 ∧ (bytesTo 19).length ≠ 18 := by decide
theorem witness_ParmsSerThenDesIsIdentity : State.reset.pending = none ∧ parmsInWidth parmsMax = true := by decide
theorem witness_EnvInitAndEnvStatusQueryBuildTheirEnvelopes :
    State.reset.pending = none ∧ parmsInWidth parmsMax = true ∧ parmsInWidth { parmsMax with preamble := 8 } = false := by decide
theorem witness_EnvTxBlockBuildsItsEnvelope : State.reset.pending = none := rfl
theorem witness_EnvParseIsTotal : State.reset.pending = none ∧ ([] : List Byte).length < 2 ∧ (bytesTo 1).length < 2 := by decide
theorem witness_BuiltEnvelopesParseBack :
    Params.reference.Valid ∧ parmsInWidth parmsMax = true ∧ 255 ≤ 255 ∧ (bytesTo 253).length ≤ 253 := ⟨reference_valid, by decide +kernel⟩
theorem witness_WireCommandsAnswerTheirDecode :
    State.reset.pending = none ∧ State.reset.params.Valid ∧ (bytesTo 255).length ≤ 255 ∧ (bytesTo 255).length ≠ 18 ∧
      (bytesTo 17).length ≠ 18 ∧ (bytesTo 18).length = 18 ∧ parmsInWidth parms1 = true ∧ payload1 = parmsSer parms1 :=
  ⟨rfl, reference_valid, by decide +kernel⟩
theorem witness_StatusDecodeReadsEveryField : State.reset.pending = none ∧ (bytesTo 11).length ≠ 12 ∧ (bytesTo 13).length ≠ 12 := by decide
theorem witness_StatusDecodeLosesOnlyThreeBits :
    (bytesTo 12).length = 12 ∧ status1.length = 12 ∧ (bytesTo 12)[5]? = some 0x55 ∧ status1[5]? = some 0x0D := by decide
theorem witness_RssiDbmIsTheHalfDbFormula : State.reset.pending = none := rfl
theorem witness_RssiDbmIsInjectiveOnBytes :
    127 ≤ 127 ∧ 128 ≤ 128 ∧ 128 ≤ 255 ∧ 255 ≤ 255 ∧ rssiDbm 255 = rssiDbm 255 := by decide +kernel
theorem witness_FsmNameReadsTheTable :
    State.reset.pending = none ∧ State.reset.params.Valid ∧ 22 ≤ 22 ∧ (23 ≤ 23 ∧ 31 ≤ 31) ∧ 31 < 32 := ⟨rfl, reference_valid, by decide⟩
theorem witness_ReadWithTimeoutStartsAPoll : State.reset.pending = none := rfl
theorem witness_SendInitWritesTheInitEnvelope :
    State.reset.pending = none ∧ State.reset.params.Valid ∧ rateOf cfg1.scheme (0 * cfg1.skew) ≤ 0 ∧
      rateOf cfg1.scheme (cfg1.baseRate * cfg1.skew) * 0 ≤ 0 ∧
      0 < rateOf cfg1.scheme (cfg1.baseRate * cfg1.skew) ∧ 0 < rateOf cfg1.scheme (cfg1.baseRate * cfg1.skew) * cfg1.modIndex :=
  ⟨rfl, reference_valid, by decide +kernel⟩
theorem witness_QueryStatusWritesTheQueryEnvelope : State.reset.pending = none ∧ State.reset.params.Valid := ⟨rfl, reference_valid⟩
/-- A buffer of 20 bytes, the smallest, takes a block of 16 bytes and refuses one of 17. -/
theorem witness_SendBlockWritesTheBlockEnvelope :
    State.reset.pending = none ∧ 255 < 256 ∧ (255 ≤ 255 ∧ 253 < (bytesTo 254).length) ∧
      ((bytesTo 17).length ≤ 253 ∧ 20 < 4 + (bytesTo 17).length) ∧ 4 + (bytesTo 16).length ≤ 20 ∧
      (bytesTo 253).length ≤ 253 ∧ 4 + (bytesTo 253).length ≤ State.reset.params.scratchCapacity ∧ (1 : Nat) ≠ 0 := by decide +kernel
theorem witness_PositiveReadEndsTheTransaction :
    let s := polling (.sendBlock 8 8) 3 [.data (bytesTo 15)]
    s.params.Valid ∧ s.pending = some (.sendBlock 8 8) ∧ NextAnswer s (.data (bytesTo 15)) [] s.draws ∧ bytesTo 15 ≠ [] :=
  ⟨reference_valid, rfl, ⟨rfl, .inl ⟨rfl, rfl⟩⟩, by decide⟩
/-- Two attempts left and a count of -3; one left and a count of 0 without bytes, and with an empty run of them. -/
theorem witness_EmptyReadUsesUpAnAttempt :
    (∃ s, s = polling (.sendInit 20 20) 2 [.noData 3] ∧ s.params.Valid ∧ s.pending = some (.sendInit 20 20) ∧
      NextAnswer s (.noData 3) [] s.draws ∧ ReadAnswer.count 14 (.noData 3) = -3 ∧ (-3 : Int) ≤ 0 ∧ 2 ≤ s.attemptsLeft) ∧
      (inFlight.params.Valid ∧ inFlight.pending = some (.queryStatus 2 2) ∧ NextAnswer inFlight (.noData 0) [] inFlight.draws ∧
        ReadAnswer.count 14 (.noData 0) = 0 ∧ inFlight.attemptsLeft = 1) ∧
      ∃ s, s = polling .readWithTimeout 1 [.data []] ∧ NextAnswer s (.data []) [] s.draws ∧ ReadAnswer.count 14 (.data []) = 0 :=
  ⟨⟨_, rfl, reference_valid, rfl, ⟨rfl, .inl ⟨rfl, rfl⟩⟩, rfl, by decide, by decide⟩,
    ⟨reference_valid, rfl, ⟨rfl, .inl ⟨rfl, rfl⟩⟩, rfl, rfl⟩, _, rfl, ⟨rfl, .inl ⟨rfl, rfl⟩⟩, rfl⟩
/-- Every state's next answer, a free draw among them, falls under exactly one of the two statements on attempts. -/
theorem witness_everyAnswerIsCovered (s : State) :
    ∃ ans rest draws, NextAnswer s ans rest draws ∧
      ((∃ bytes, ans = .data bytes ∧ bytes ≠ []) ↔ ¬ReadAnswer.count 14 ans ≤ 0) := by
  have split : ∀ ans : ReadAnswer, (∃ bytes, ans = .data bytes ∧ bytes ≠ []) ↔ ¬ReadAnswer.count 14 ans ≤ 0 := by
    intro ans
    cases ans with
    | noData k => simp [ReadAnswer.count]
    | data bytes => cases bytes <;> simp [ReadAnswer.count]
  cases h : s.readScript with
  | nil => exact ⟨_, [], _, ⟨nextReadAnswer_of_empty h, .inr ⟨h, rfl, rfl, rfl⟩⟩, split _⟩
  | cons a rest => exact ⟨a, rest, _, ⟨nextReadAnswer_of_script h, .inl ⟨h, rfl⟩⟩, split _⟩
theorem witness_AttemptMakesOneBoundedRead :
    ∃ t, attemptStep (polling .readWithTimeout 2 [.noData 0]) = .next t := ⟨_, rfl⟩
theorem witness_ReadWritesOnlyTheDeliveredBytes :
    (∃ t : State, attemptStep (polling .readWithTimeout 2 [.data (bytesTo 14)]) = .next t ∧
      t.linkLog = [] ++ [.read 14 14 (bytesTo 14)] ∧ (14 : Int) ≤ (14 : Nat)) ∧
      ∃ t : State, attemptStep (polling .readWithTimeout 2 [.noData 1]) = .next t ∧ t.linkLog = [] ++ [.read 14 (-1) []] ∧
        (-1 : Int) ≤ (0 : Nat) := ⟨⟨_, rfl, rfl, by decide⟩, _, rfl, rfl, by decide⟩
theorem witness_TwelveByteStatusReplyUsesStaleBytes :
    let s := polling (.queryStatus 2 2) 3 [.data (bytesTo 12)]
    s.params.Valid ∧ s.pending = some (.queryStatus 2 2) ∧ nextReadAnswer s = .data (bytesTo 12) ∧ (bytesTo 12).length = 12 :=
  ⟨reference_valid, rfl, rfl, rfl⟩
theorem witness_PollMakesExactlyItsReads :
    (∃ s, s = scripted [] [.noData 0, .noData 1] ∧ s.params.Valid ∧ s.seq = .idle ∧ s.pending = none ∧ s.inbox = [] ∧ [0, 1].length = 2 ∧ [0, 1].getLast? = some 1 ∧
        s.readScript = [0, 1].map .noData ++ []) ∧
      (∃ s, s = scripted [] [.noData 0, .data (bytesTo 14)] ∧ s.params.Valid ∧ s.seq = .idle ∧ s.pending = none ∧ s.inbox = [] ∧ [0].length < 2 ∧ bytesTo 14 ≠ [] ∧ (bytesTo 14).length ≤ 14 ∧
        s.readScript = [0].map .noData ++ .data (bytesTo 14) :: []) :=
  ⟨⟨_, rfl, reference_valid, by decide⟩, _, rfl, reference_valid, by decide⟩
theorem witness_SetXtalChangesOnlyXtal : State.reset.pending = none := rfl
theorem witness_OnlySetXtalWritesXtal :
    (∃ t, step State.reset = .next t) ∧ (∃ t, attemptStep inFlight = .next t) ∧
      ∃ t : State, exec (.setXtal 1) State.reset = .next t ∧ t.xtal ≠ State.reset.xtal := by
  refine ⟨⟨_, rfl⟩, ?_, _, rfl, by decide⟩
  obtain ⟨p, v, -, -, h⟩ := (completePoll_cases 0 (s := { sleep (attemptRead inFlight) with attemptsLeft := 0 }) (by decide)).resolve_left
    (by rintro ⟨h, -⟩; cases h)
  exact ⟨_, (attemptStep_eq (s := inFlight) (by decide)).trans h⟩
theorem witness_PureOperationsLeaveBufferAndStreamAlone :
    startsPoll (.setXtal 1) = false ∧ (∃ t, exec (.setXtal 1) State.reset = .next t) ∧ startsPoll .envStatusQuery = false ∧
      ∃ t, exec .envStatusQuery State.reset = .next t := ⟨rfl, ⟨_, rfl⟩, rfl, _, rfl⟩
theorem witness_DiagOnlyGrowsByClampNotices :
    (∃ t, step State.reset = .next t) ∧
      ∃ t : State, exec (.drateDev 300001 1 1 .fsk4) State.reset = .next t ∧ t.diag ≠ State.reset.diag :=
  ⟨⟨_, rfl⟩, _, unlessRefused_effect rfl (by decide +kernel), by decide +kernel⟩

end Sys2Proof.Tests
end

section
/-! PROOFS. The state after reset (70_reset_and_hazards.md section 1). -/

namespace Sys2Proof.Machine

/-- The block comes out of reset IDLE, with nothing in flight, no byte of `SCRATCH` written and no notice, so only the clauses on the
parameters and on `XTAL` ask for anything, and 00_scope.md R4 gives both. -/
theorem State.resetWith_inv {p : Params} (hp : p.Valid) : (State.resetWith p).Inv where
  params_valid := hp
  xtal_pos := hp.xtalDefault_pos
  scratch_wf := rfl
  scratch_range _ hc := absurd hc List.not_mem_nil
  polling_iff_pending := by simp [State.resetWith]
  attempts_left hpolling := nomatch hpolling
  pending_bounded _ hpending := nomatch hpending
  diag_clamped _ hnotice := absurd hnotice List.not_mem_nil

theorem State.reset_inv : State.reset.Inv := State.resetWith_inv Tests.reference_valid

/-- Settles O2: the invariant of reset for every valid parameter set, and its instance at the reference instantiation. -/
theorem invariantHoldsAtReset : Obligations.InvariantHoldsAtReset :=
  ⟨fun _ hp => State.resetWith_inv hp, State.reset_inv⟩

end Sys2Proof.Machine
end

section
/-! PROOFS. The invariant of the machine, kept by each shared operation and so by every step (10_state.md R19, R20, R23, R24;
20_memory.md R37, R48). -/

namespace Sys2Proof.Machine

variable {s t : State}

/-! ## The operations that write no field the invariant speaks of -/

theorem respond_inv (hs : s.Inv) (v : Result) : (respond v s).Inv := { hs with }

theorem refuse_inv (hs : s.Inv) (reason : RefReason) : (refuse reason s).Inv := { hs with }

theorem taken_inv (hs : s.Inv) (a : Arrival) (rest : List Arrival) : (Claims.taken a rest s).Inv := { hs with }

/-! ## The operations that write one -/

theorem emit_clampNotices_inv (hs : s.Inv) (scheme : Scheme) (r0 : Rat) : (emit (clampNotices scheme r0) s).Inv :=
  { hs with
    diag_clamped := fun r hr => (List.mem_append.1 hr).elim (hs.diag_clamped r) clampNotices_rate }

theorem setXtal_inv (hs : s.Inv) {hz : Nat} (hpos : hz ≠ 0) : State.Inv { s with xtal := hz } :=
  { hs with xtal_pos := Nat.pos_of_ne_zero hpos }

/-- A run written from address 0 keeps the buffer canonical, and inside its capacity when it fits there. -/
theorem writeRun_inv (hs : s.Inv) {v : List Byte} (hfit : v.length ≤ s.params.scratchCapacity) :
    State.Inv { s with scratch := Memory.writeRun s.scratch 0 v } :=
  { hs with
    scratch_wf := Memory.writeRun_wf v 0 hs.scratch_wf
    scratch_range := fun c hc =>
      (Memory.mem_writeRun hc).elim (fun hrun => hrun.2.trans_le (by simpa using hfit)) (hs.scratch_range c) }

theorem beginPoll_inv (hs : s.Inv) {p : Pending} {budget : Nat} (hbudget : budget ≠ 0)
    (hp : p.Bounded s.params.scratchCapacity) : (beginPoll p budget s).Inv :=
  { hs with
    polling_iff_pending := by simp
    attempts_left := fun _ => Nat.pos_of_ne_zero hbudget
    pending_bounded := fun q hq => Option.some.inj hq ▸ hp }

/-! ## Requests -/

/-- The link takes at most the bytes offered, so whichever transaction is in flight is bounded (20_memory.md R44, R48). -/
theorem transaction_bounded {mk : Int → Nat → Pending} (hmk : mk = .sendInit ∨ mk = .queryStatus ∨ mk = .sendBlock)
    {len capacity : Nat} (hfit : len ≤ capacity) (s : State) : (mk (nextWriteCount len s) len).Bounded capacity := by
  rcases hmk with rfl | rfl | rfl <;> exact ⟨nextWriteCount_le len s, hfit⟩

/-- The start of a transaction is a run written from address 0 and the beginning of a poll; the rest is the link's side. -/
theorem transactionStarted_inv (hs : s.Inv) {mk : Int → Nat → Pending}
    (hmk : mk = .sendInit ∨ mk = .queryStatus ∨ mk = .sendBlock) {env : List Byte} {budget : Nat} (hbudget : budget ≠ 0)
    (hfit : env.length ≤ s.params.scratchCapacity) :
    (transactionStarted mk env budget s).Inv :=
  { beginPoll_inv (writeRun_inv hs hfit) hbudget (transaction_bounded hmk hfit s) with }

theorem Effect.inv {o : Host.Outcome State Fault Refusal} (hs : s.Inv) (h : Effect s o) (ht : o = .next t) : t.Inv := by
  cases h with
  | answer v scheme r0 =>
    cases ht
    exact respond_inv (emit_clampNotices_inv hs scheme r0) v
  | xtal hz hpos =>
    cases ht
    exact respond_inv (setXtal_inv hs hpos) .ack
  | poll budget hbudget =>
    cases ht
    exact beginPoll_inv hs hbudget trivial
  | transaction mk hmk env budget hb hfit scheme r0 =>
    cases ht
    have hbudget : budget ≠ 0 := by
      rcases hb with rfl | rfl | hb
      · exact Nat.ne_of_gt hs.params_valid.initAttempts_pos
      · exact Nat.ne_of_gt hs.params_valid.statusAttempts_pos
      · exact hb
    exact transactionStarted_inv (emit_clampNotices_inv hs scheme r0) hmk hbudget hfit

theorem exec_inv (hs : s.Inv) {i : Instr} (h : exec i s = .next t) : t.Inv := by
  rcases exec_cases i s with ⟨reason, hrefused⟩ | ⟨-, heffect⟩
  · cases h.symm.trans hrefused
    exact refuse_inv hs reason
  · exact heffect.inv hs h

theorem undecodable_inv (hs : s.Inv) {err : DecodeError} {e : Encoded} (h : undecodable err e s = .next t) : t.Inv := by
  rcases undecodable_cases err e s with ⟨reason, hrefused⟩ | ⟨-, v, hanswer⟩
  · cases h.symm.trans hrefused
    exact refuse_inv hs reason
  · cases h.symm.trans hanswer
    exact respond_inv hs v

/-! ## Attempts -/

/-- A valid buffer holds a whole reply: R4 asks for 20 bytes, a read delivers at most 14. -/
theorem State.Inv.readMax_le_capacity (hs : s.Inv) : readMax ≤ s.params.scratchCapacity :=
  le_trans (by decide) hs.params_valid.scratchCapacity_min

theorem attemptRead_inv (hs : s.Inv) : (attemptRead s).Inv :=
  { writeRun_inv hs ((ReadAnswer.delivered_length_le readMax (nextReadAnswer s)).trans hs.readMax_le_capacity) with }

/-- A poll that returns leaves the block IDLE, where the invariant asks nothing of what is left of the budget. -/
theorem completePoll_inv (hs : s.Inv) {n : Int} (left sleeps : Nat)
    (h : completePoll n { s with attemptsLeft := left, sleeps := sleeps } = .next t) : t.Inv := by
  rw [completePoll_frame h]
  exact { hs with
    polling_iff_pending := by simp
    attempts_left := nofun
    pending_bounded := nofun }

/-- A failed attempt either ends the poll or leaves an attempt of it. -/
theorem failedAttempt_inv (hs : s.Inv) {n : Int} (h : failedAttempt n s = .next t) : t.Inv := by
  unfold failedAttempt at h
  dsimp only at h
  split at h
  next => exact completePoll_inv hs _ _ h
  next hleft =>
    cases h
    exact { hs with attempts_left := fun _ => Nat.pos_of_ne_zero hleft }

theorem attemptStep_inv (hs : s.Inv) (h : attemptStep s = .next t) : t.Inv := by
  rw [attemptStep_eq hs.readMax_le_capacity] at h
  split at h
  next => exact completePoll_inv (attemptRead_inv hs) _ _ h
  next => exact failedAttempt_inv (attemptRead_inv hs) h

/-! ## Steps -/

/-- Where the next state of a step comes from: waiting, an attempt, or what answers the request taken. -/
theorem step_eq_next_cases (h : step s = .next t) :
    t = s ∨ attemptStep s = .next t ∨
      ∃ a rest, (∃ i, exec i (Claims.taken a rest s) = .next t) ∨
        ∃ err, undecodable err a.body (Claims.taken a rest s) = .next t := by
  rcases step_cases s with ⟨-, -, hwait⟩ | ⟨-, -, hattempt⟩ | ⟨a, rest, -, -, ⟨i, -, hexec⟩ | ⟨err, -, herror⟩⟩
  · cases h.symm.trans hwait
    exact .inl rfl
  · exact .inr (.inl (hattempt ▸ h))
  · exact .inr (.inr ⟨a, rest, .inl ⟨i, hexec ▸ h⟩⟩)
  · exact .inr (.inr ⟨a, rest, .inr ⟨err, herror ▸ h⟩⟩)

/-- Settles O3: waiting changes nothing, and requests, refused forms and attempts each keep the invariant. -/
theorem stepKeepsTheInvariant : Obligations.StepKeepsTheInvariant := by
  intro s t hs h
  rcases step_eq_next_cases h with rfl | hattempt | ⟨a, rest, ⟨i, hexec⟩ | ⟨err, herror⟩⟩
  · exact hs
  · exact attemptStep_inv hs hattempt
  · exact exec_inv (taken_inv hs a rest) hexec
  · exact undecodable_inv (taken_inv hs a rest) herror

end Sys2Proof.Machine
end

section
/-! PROOFS. Who writes `XTAL` and `DIAG` (10_state.md R20, R24; 60_exceptions.md R155), and that no step writes a parameter
(00_scope.md R6). -/

namespace Sys2Proof.Machine

variable {i : Instr} {s t : State}

/-! ## The notices of an instruction -/

/-- The notices of an instruction that is not refused (60_exceptions.md R155). -/
def instrNotices : Instr → List Notice
  | .drateDev baseRate skew _ scheme => clampNotices scheme (baseRate * skew)
  | .encodeConfig cfg | .sendInit cfg => encodeConfigNotices cfg
  | _ => []

/-- An instruction that clamps nothing gives the notices of a 2FSK rate: none. -/
theorem instrNotices_eq_clampNotices (i : Instr) : ∃ scheme r0, instrNotices i = clampNotices scheme r0 := by
  cases i with
  | drateDev | encodeConfig | sendInit => exact ⟨_, _, rfl⟩
  | _ => exact ⟨.fsk2, 0, rfl⟩

theorem clampNotices_length_le (scheme : Scheme) (r0 : Rat) : (clampNotices scheme r0).length ≤ 1 := by
  unfold clampNotices
  split <;> simp

theorem fsk4_of_clampNotices_ne_nil {scheme : Scheme} {r0 : Rat} (h : clampNotices scheme r0 ≠ []) : scheme = .fsk4 := by
  by_contra hscheme
  exact h (by simp [clampNotices, clampApplies, hscheme])

/-- Only an instruction with a 4FSK rate can have a notice. -/
theorem fsk4_of_instrNotices_ne_nil (h : instrNotices i ≠ []) :
    (∃ baseRate skew modIndex, i = .drateDev baseRate skew modIndex .fsk4) ∨
      ∃ cfg : RadioLinkConfig, cfg.scheme = .fsk4 ∧ (i = .encodeConfig cfg ∨ i = .sendInit cfg) := by
  cases i with
  | drateDev baseRate skew modIndex scheme =>
    obtain rfl := fsk4_of_clampNotices_ne_nil h
    exact .inl ⟨_, _, _, rfl⟩
  | encodeConfig cfg => exact .inr ⟨cfg, fsk4_of_clampNotices_ne_nil h, .inl rfl⟩
  | sendInit cfg => exact .inr ⟨cfg, fsk4_of_clampNotices_ne_nil h, .inr rfl⟩
  | _ => exact absurd rfl h

/-! ## What an instruction writes -/

/-- What `i`, taken in `s`, may have written of the two registers when it ends in `t`. -/
structure XtalDiagWrites (i : Instr) (s t : State) : Prop where
  xtal : t.xtal = s.xtal ∨ (i = .setXtal t.xtal ∧ t.xtal ≠ 0)
  diag : t.diag = s.diag ∨ t.diag = s.diag ++ instrNotices i

/-- A refusal writes neither register, so only the effect need be looked at. -/
theorem XtalDiagWrites.ofUnlessRefused {rs : List (Bool × RefReason)} {k : Host.Outcome State Fault Refusal}
    (h : unlessRefused rs s k = .next t) (hk : firstReason rs = none → k = .next t → XtalDiagWrites i s t) :
    XtalDiagWrites i s t := by
  rcases unlessRefused_cases rs s k with ⟨reason, hrefused⟩ | ⟨-, hnone, heffect⟩
  · cases h.symm.trans hrefused
    exact ⟨.inl rfl, .inl rfl⟩
  · exact hk hnone (heffect.symm.trans h)

/-- An effect that leaves both registers alone. -/
theorem XtalDiagWrites.ofUnwritten {rs : List (Bool × RefReason)} {u : State} (h : unlessRefused rs s (.next u) = .next t)
    (hxtal : u.xtal = s.xtal) (hdiag : u.diag = s.diag) : XtalDiagWrites i s t :=
  .ofUnlessRefused h fun _ hu => by
    cases hu
    exact ⟨.inl hxtal, .inl hdiag⟩

theorem beginTransaction_xtal_diag {mk : Int → Nat → Pending} {env : List Byte} {budget : Nat}
    (h : beginTransaction mk env budget s = .next t) : t.xtal = s.xtal ∧ t.diag = s.diag := by
  rw [beginTransaction_eq] at h
  split at h <;> cases h
  exact ⟨rfl, rfl⟩

theorem exec_xtalDiagWrites (h : exec i s = .next t) : XtalDiagWrites i s t := by
  cases i with
  | freqWord | ifWord | modEnc | modDec | chanBw | effRate | byteTime | parmsSer | envInit | envStatusQuery | envTxBlock | envParse
    | rssiDbm | fsmName | cmdInit | cmdStatusQuery | cmdTxBlock | readWithTimeout => exact .ofUnwritten h rfl rfl
  | parmsDes bytes =>
    change execParmsDes bytes s = _ at h
    unfold execParmsDes at h
    split at h <;> exact .ofUnwritten h rfl rfl
  | statusDecode payload =>
    change execStatusDecode payload s = _ at h
    unfold execStatusDecode at h
    split at h <;> exact .ofUnwritten h rfl rfl
  | drateDev | encodeConfig =>
    exact .ofUnlessRefused h fun _ hu => by
      cases hu
      exact ⟨.inl rfl, .inr rfl⟩
  | setXtal hz =>
    exact .ofUnlessRefused (rs := [(hz == 0, .xtalZero)]) h fun hnone hu => by
      cases hu
      have hz0 : hz ≠ 0 := by
        rintro rfl
        cases hnone
      exact ⟨.inr ⟨rfl, hz0⟩, .inl rfl⟩
  | sendInit =>
    exact .ofUnlessRefused h fun _ hu =>
      let ⟨hxtal, hdiag⟩ := beginTransaction_xtal_diag hu
      ⟨.inl hxtal, .inr hdiag⟩
  | queryStatus | sendBlock =>
    exact .ofUnlessRefused h fun _ hu =>
      let ⟨hxtal, hdiag⟩ := beginTransaction_xtal_diag hu
      ⟨.inl hxtal, .inl hdiag⟩

/-! ## What a step writes -/

/-- A form that stands for no instruction changes neither the parameters nor `DIAG`. -/
theorem undecodable_params_diag {err : DecodeError} {e : Encoded} (h : undecodable err e s = .next t) :
    t.params = s.params ∧ t.diag = s.diag := by
  rcases undecodable_cases err e s with ⟨reason, hrefused⟩ | ⟨-, v, hanswer⟩
  · cases h.symm.trans hrefused
    exact ⟨rfl, rfl⟩
  · cases h.symm.trans hanswer
    exact ⟨rfl, rfl⟩

theorem step_params (h : step s = .next t) : t.params = s.params := by
  rcases step_eq_next_cases h with rfl | hattempt | ⟨a, rest, ⟨i, hexec⟩ | ⟨err, herror⟩⟩
  · rfl
  · obtain ⟨-, -, -, -, -, -, hparams, -⟩ := attemptStep_frame hattempt
    exact hparams
  · obtain ⟨-, hparams, -⟩ := exec_frame hexec
    exact hparams
  · obtain ⟨hparams, -⟩ := undecodable_params_diag herror
    exact hparams

theorem attemptStep_xtal (h : attemptStep s = .next t) : t.xtal = s.xtal := by
  obtain ⟨-, -, -, hxtal, -⟩ := attemptStep_frame h
  exact hxtal

/-- A step appends nothing to `DIAG`, or the notices of the instruction it runs. -/
theorem step_diag (h : step s = .next t) : t.diag = s.diag ∨ ∃ i, t.diag = s.diag ++ instrNotices i := by
  rcases step_eq_next_cases h with rfl | hattempt | ⟨a, rest, ⟨i, hexec⟩ | ⟨err, herror⟩⟩
  · exact .inl rfl
  · obtain ⟨-, -, -, -, hdiag, -⟩ := attemptStep_frame hattempt
    exact .inl hdiag
  · exact (exec_xtalDiagWrites hexec).diag.imp_right fun hdiag => ⟨i, hdiag⟩
  · obtain ⟨-, hdiag⟩ := undecodable_params_diag herror
    exact .inl hdiag

/-- Settles O57: the frame of each kind of step for the parameters, the attempt's for `XTAL`, and what an instruction may write. -/
theorem onlySetXtalWritesXtal : Obligations.OnlySetXtalWritesXtal :=
  ⟨fun _ _ => step_params, fun _ _ => attemptStep_xtal,
    fun _ _ _ h hchanged => (exec_xtalDiagWrites h).xtal.resolve_left hchanged⟩

/-- Settles O59: what is appended is one list of clamp notices, and it is empty but for a 4FSK rate. -/
theorem diagOnlyGrowsByClampNotices : Obligations.DiagOnlyGrowsByClampNotices := by
  constructor
  · intro s t h
    rcases step_diag h with hsame | ⟨i, hgrown⟩
    · exact ⟨[], by simp [hsame], by simp, nofun⟩
    · obtain ⟨scheme, r0, hnotices⟩ := instrNotices_eq_clampNotices i
      exact ⟨clampNotices scheme r0, hnotices ▸ hgrown, clampNotices_length_le scheme r0, fun _ => clampNotices_rate⟩
  · intro i s t h hchanged
    have hgrown := (exec_xtalDiagWrites h).diag.resolve_left hchanged
    exact fsk4_of_instrNotices_ne_nil fun hnil => hchanged (by simpa [hnil] using hgrown)

end Sys2Proof.Machine
end

section
/-! PROOFS. Who touches `SCRATCH` and the byte stream (20_memory.md R36, R38, R45, R49, R51): the read of an attempt, and of the instructions
the transactions alone. -/

namespace Sys2Proof.Machine

variable {s t : State}

/-! ## The read of an attempt -/

/-- Settles O52: the call an attempt logs is the next answer's, so its bounds are those of every answer. -/
theorem attemptMakesOneBoundedRead : Obligations.AttemptMakesOneBoundedRead := by
  intro s t h
  obtain ⟨hlink, hcount, -⟩ := attemptStep_frame h
  exact ⟨_, _, hlink, ReadAnswer.count_le readMax _, hcount, fun hpos => (ReadAnswer.count_of_pos hpos).symm,
    fun hnonpos => ReadAnswer.delivered_of_not_pos (not_lt.2 hnonpos)⟩

/-- The call an attempt logs tells the count of its read. -/
theorem attemptStep_count_of_linkLog (h : attemptStep s = .next t) {max : Nat} {n : Int} {d : List Byte}
    (hlog : t.linkLog = s.linkLog ++ [.read max n d]) : ReadAnswer.count readMax (nextReadAnswer s) = n := by
  obtain ⟨hlink, -⟩ := attemptStep_frame h
  have hcall := List.append_cancel_left (hlink.symm.trans hlog)
  simp only [List.cons.injEq, LinkCall.read.injEq] at hcall
  obtain ⟨⟨-, hcount, -⟩, -⟩ := hcall
  exact hcount

/-- Settles O53: a positive count is the length of the one run written, from address 0; otherwise nothing is written. -/
theorem readWritesOnlyTheDeliveredBytes : Obligations.ReadWritesOnlyTheDeliveredBytes := by
  intro s t h n d hlog a ha
  obtain ⟨-, -, hscratch, -⟩ := attemptStep_frame h
  have hcount := attemptStep_count_of_linkLog h hlog
  split at hscratch
  next hpos =>
    have hlength := ReadAnswer.count_of_pos hpos
    rw [hscratch]
    exact Memory.byteAt_writeRun_of_outside (by omega)
  next => rw [hscratch]

/-! ## Instructions that start no poll -/

/-- Of all the fields only `XTAL`, `DIAG`, `REFUSED` and the host's log may differ. -/
def SameBufferAndStream (s t : State) : Prop :=
  t = { s with xtal := t.xtal, diag := t.diag, refused := t.refused, hostLog := t.hostLog }

/-- A refusal writes `REFUSED` and the host's log, so only the effect need be looked at. -/
theorem SameBufferAndStream.ofUnlessRefused {rs : List (Bool × RefReason)} {u : State} (h : unlessRefused rs s (.next u) = .next t)
    (hu : SameBufferAndStream s u) : SameBufferAndStream s t := by
  rcases unlessRefused_cases rs s (.next u) with ⟨reason, hrefused⟩ | ⟨-, -, heffect⟩
  · cases h.symm.trans hrefused
    rfl
  · cases h.symm.trans heffect
    exact hu

/-- Settles O58: such an instruction answers, with notices or a new `XTAL` at most, or is refused. -/
theorem pureOperationsLeaveBufferAndStreamAlone : Obligations.PureOperationsLeaveBufferAndStreamAlone := by
  intro i s t hpure h
  cases i with
  | readWithTimeout | sendInit | queryStatus | sendBlock => cases hpure
  | parmsDes | statusDecode =>
    simp only [exec, execParmsDes, execStatusDecode] at h
    split at h <;> exact SameBufferAndStream.ofUnlessRefused h rfl
  | freqWord | ifWord | modEnc | modDec | chanBw | drateDev | effRate | byteTime | encodeConfig | parmsSer | envInit | envStatusQuery
    | envTxBlock | envParse | rssiDbm | fsmName | setXtal | cmdInit | cmdStatusQuery | cmdTxBlock =>
    exact SameBufferAndStream.ofUnlessRefused h rfl

end Sys2Proof.Machine
end

section
/-! PROOFS. The encoded forms of an instruction (30_encoding.md R61 to R69): the request decoder and the envelope decoder are each the inverse of
the encoder, and the reserved codes are refused. -/

namespace Sys2Proof

variable {p : Params} {i : Instr} {op : OpCode} {args : List Arg}

/-! ## Requests -/

/-- The matched code and the matched tuple are the encoding; what matches neither decodes to nothing. -/
theorem encode_of_decodeRequest (h : decodeRequest op args = .ok i) : encode p i = .request op args := by
  unfold decodeRequest at h
  split at h
  case h_24 => cases h
  all_goals
    next hop =>
      obtain ⟨-, rfl⟩ := BitVec.toNat_eq_nat.1 hop
      split at h <;> cases h
      rfl

/-- The encoder gives each instruction the code and the tuple that the decoder matches for it. -/
theorem decodeRequest_of_encode (h : encode p i = .request op args) : decodeRequest op args = .ok i := by
  cases i <;> cases h <;> rfl

/-- R63: no arm of the op-select map is a reserved code's. -/
theorem decodeRequest_of_reserved (h : op = 0x00#5 ∨ 0x18#5 ≤ op) (args : List Arg) :
    decodeRequest op args = .error .reservedOp := by
  have hcode : op.toNat = 0 ∨ 24 ≤ op.toNat := h.imp_left fun hzero => congrArg BitVec.toNat hzero
  unfold decodeRequest
  split
  case h_24 => rfl
  all_goals omega

/-- R62: the tuple of zero arguments of an operation's code is one of its tuples. -/
theorem decodeRequest_zeroArgs_isOk :
    ∀ op : OpCode, 0x01#5 ≤ op → op ≤ 0x17#5 → (decodeRequest op (Machine.zeroArgs op)).isOk = true := by
  decide

theorem exists_decodeRequest_eq_ok (hlow : 0x01#5 ≤ op) (hhigh : op ≤ 0x17#5) : ∃ args i, decodeRequest op args = .ok i := by
  have hok := decodeRequest_zeroArgs_isOk op hlow hhigh
  cases hdecode : decodeRequest op (Machine.zeroArgs op) with
  | ok i => exact ⟨_, i, hdecode⟩
  | error err =>
    rw [hdecode] at hok
    cases hok

/-! ## Envelopes -/

/-- The wire command that a type code and a payload make (30_encoding.md R67). -/
inductive WireCommand (p : Params) (payload : List Byte) : Byte → Instr → Prop where
  | init : WireCommand p payload p.cmdInit (.cmdInit payload)
  | statusQuery : WireCommand p payload p.cmdStatusQuery (.cmdStatusQuery payload)
  | txBlock : WireCommand p payload p.cmdTxBlock (.cmdTxBlock payload)

variable {type len : Byte} {payload rest bytes : List Byte}

theorem WireCommand.encode_eq (h : WireCommand p payload type i) : encode p i = .envelope (encodeEnvelope type payload) := by
  cases h <;> rfl

/-- R66: a wire command is well formed when its payload fits the length byte. -/
theorem WireCommand.wellFormed_iff (h : WireCommand p payload type i) : i.wellFormed = true ↔ payload.length ≤ 255 := by
  cases h with
  | init => exact Laws.ArgumentRange.cmdInit payload
  | statusQuery => exact Laws.ArgumentRange.cmdStatusQuery payload
  | txBlock => exact Laws.ArgumentRange.cmdTxBlock payload

theorem wireCommand_of_encode (h : encode p i = .envelope bytes) :
    ∃ type payload, WireCommand p payload type i ∧ bytes = encodeEnvelope type payload := by
  cases i with
  | cmdInit =>
    cases h
    exact ⟨_, _, .init, rfl⟩
  | cmdStatusQuery =>
    cases h
    exact ⟨_, _, .statusQuery, rfl⟩
  | cmdTxBlock =>
    cases h
    exact ⟨_, _, .txBlock, rfl⟩
  | _ => cases h

/-- The bytes an envelope announces are the wire form of its payload. -/
theorem encodeEnvelope_take (hcomplete : len.toNat ≤ rest.length) :
    encodeEnvelope type (rest.take len.toNat) = type :: len :: rest.take len.toNat := by
  simp [encodeEnvelope, hcomplete]

/-- An envelope that decodes is complete, and is the wire command of its type code and of the payload it announces. -/
theorem wireCommand_of_decodeEnvelope (h : decodeEnvelope p (type :: len :: rest) = .ok i) :
    len.toNat ≤ rest.length ∧ WireCommand p (rest.take len.toNat) type i := by
  simp only [decodeEnvelope] at h
  split at h
  next => cases h
  next hcomplete =>
    refine ⟨not_lt.1 hcomplete, ?_⟩
    split at h
    next htype =>
      cases h
      exact htype ▸ .init
    next =>
      split at h
      next htype =>
        cases h
        exact htype ▸ .statusQuery
      next =>
        split at h <;> cases h
        next htype => exact htype ▸ .txBlock

/-- R69: the length byte marks the end of the payload, and distinct type codes (R67) tell the commands apart. -/
theorem WireCommand.decodeEnvelope_append (hp : p.Valid) (h : WireCommand p payload type i) (hfits : payload.length ≤ 255)
    (tail : List Byte) : decodeEnvelope p (encodeEnvelope type payload ++ tail) = .ok i := by
  obtain ⟨hinitQuery, hinitTx, hqueryTx⟩ := hp.cmd_distinct
  have hlen : (BitVec.ofNat 8 payload.length).toNat = payload.length := by
    rw [BitVec.toNat_ofNat]
    exact Nat.mod_eq_of_lt (by omega)
  cases h with
  | init => simp [encodeEnvelope, decodeEnvelope, hlen]
  | statusQuery => simp [encodeEnvelope, decodeEnvelope, hlen, hinitQuery.symm]
  | txBlock => simp [encodeEnvelope, decodeEnvelope, hlen, hinitTx.symm, hqueryTx.symm]

/-- Settles O9: by the form of the encoding, the decoder of requests or that of envelopes gives the instruction back. -/
theorem decodeOfEncodeIsTheInstruction : Obligations.DecodeOfEncodeIsTheInstruction := by
  intro p i hp hi
  have henvelope : ∀ bytes tail, encode p i = .envelope bytes → decode p (.envelope (bytes ++ tail)) = .ok i := by
    intro bytes tail hbytes
    obtain ⟨type, payload, hcommand, rfl⟩ := wireCommand_of_encode hbytes
    exact hcommand.decodeEnvelope_append hp (hcommand.wellFormed_iff.1 hi) tail
  refine ⟨?_, henvelope⟩
  cases hform : encode p i with
  | request op args => exact decodeRequest_of_encode hform
  | envelope bytes => simpa using henvelope bytes [] hform

/-- Settles O10: a decoded request is its own encoding; a decoded envelope is a wire command whose payload the length byte announces. -/
theorem encodeOfDecodeIsTheForm : Obligations.EncodeOfDecodeIsTheForm := by
  refine ⟨fun _ _ _ _ => encode_of_decodeRequest, fun p type len rest i h => ?_⟩
  obtain ⟨hcomplete, hcommand⟩ := wireCommand_of_decodeEnvelope h
  have hfits : (rest.take len.toNat).length ≤ 255 := by
    rw [List.length_take_of_le hcomplete]
    exact Nat.le_of_lt_succ len.isLt
  exact ⟨hcommand.wellFormed_iff.2 hfits, hcommand.encode_eq.trans (congrArg _ (encodeEnvelope_take hcomplete))⟩

/-- Settles O11: each word is evaluated. -/
theorem writtenOutWordsDecode : Obligations.WrittenOutWordsDecode :=
  ⟨rfl, rfl, rfl, rfl, rfl, rfl, rfl, rfl, rfl, rfl⟩

end Sys2Proof

namespace Sys2Proof.Machine

variable {s : State} {a : Arrival} {rest : List Arrival} {err : DecodeError}

/-- A request that is taken and stands for no instruction is answered by `undecodable`. -/
theorem step_of_decode_eq_error (hinbox : s.inbox = a :: rest) (htaken : s.seq = .idle ∨ a.early = true)
    (hdecode : decode s.params a.body = .error err) : step s = undecodable err a.body (Claims.taken a rest s) := by
  rcases step_cases s with ⟨hempty, -, -⟩ | ⟨hpolling, hlate, -⟩ | ⟨b, rest', hhead, -, hrun⟩
  · cases hempty.symm.trans hinbox
  · have hnotEarly := hlate a rest hinbox
    simp [hpolling, hnotEarly] at htaken
  · cases hhead.symm.trans hinbox
    rcases hrun with ⟨i, hok, -⟩ | ⟨err', herror, hstep⟩
    · cases hok.symm.trans hdecode
    · cases herror.symm.trans hdecode
      exact hstep

/-- R63: with nothing in flight a reserved code is the reason of the refusal. -/
theorem undecodable_reservedOp (h : s.pending = none) (op : OpCode) (args : List Arg) :
    undecodable .reservedOp (.request op args) s = .next (Claims.refusedWith .reservedOp s) :=
  unlessRefused_refused h rfl

/-- Settles O12: a reserved code decodes to nothing, and every other code decodes with its zero arguments. -/
theorem reservedCodeIsRefused : Obligations.ReservedCodeIsRefused := by
  refine ⟨fun s a rest op args hinbox hbody hidle hpending hreserved => ?_, fun _ => exists_decodeRequest_eq_ok⟩
  have hdecode : decode s.params a.body = .error .reservedOp := hbody ▸ decodeRequest_of_reserved hreserved args
  have hstep := step_of_decode_eq_error hinbox (.inl hidle) hdecode
  rw [hbody] at hstep
  exact hstep.trans (undecodable_reservedOp (s := Claims.taken a rest s) hpending op args)

end Sys2Proof.Machine
end

section
/-! PROOFS. The two frequency words (40_frequency.md R85 to R88): the quotient of which each keeps the low bits, and the frequencies at which these bits
wrap. -/

namespace Sys2Proof.Machine

variable {s : State} {xtal f : Nat}

/-! ## What the words are -/

theorem freqWord_eq_mod (xtal f : Nat) : freqWord xtal f = f * 2 ^ 16 / xtal % 2 ^ 24 := mask_natCast 24 _

theorem ifWord_eq_mod (xtal f : Nat) : ifWord xtal f = f * 2 ^ 10 / xtal % 32 := mask_natCast 5 _

/-- The division of naturals in which the model computes both words is the floor of R85 and R87. -/
theorem floor_scaled_div (xtal f k : Nat) : ⌊(f : ℚ) * 2 ^ k / (xtal : ℚ)⌋ = ((f * 2 ^ k / xtal : Nat) : Int) := by
  have h := Rat.floor_natCast_div_natCast (f * 2 ^ k) xtal
  push_cast at h ⊢
  exact h

theorem exec_freqWord (hpending : s.pending = none) (f : Nat) :
    exec (.freqWord f) s = .next (Claims.answered (.word (freqWord s.xtal f)) s) :=
  unlessRefused_effect hpending rfl

theorem exec_ifWord (hpending : s.pending = none) (f : Nat) :
    exec (.ifWord f) s = .next (Claims.answered (.word (ifWord s.xtal f)) s) :=
  unlessRefused_effect hpending rfl

/-- Settles O16: the word is the mask of the quotient, and the quotient is the floor. -/
theorem freqWordIsTheFloorModulo24Bits : Obligations.FreqWordIsTheFloorModulo24Bits := by
  intro f s hpending _
  rw [exec_freqWord hpending, floor_scaled_div]
  rfl

/-- Settles O17: the word is the mask of the quotient, and the quotient is the floor. -/
theorem ifWordIsTheFloorModulo32 : Obligations.IfWordIsTheFloorModulo32 := by
  intro f s hpending _
  rw [exec_ifWord hpending, floor_scaled_div]
  rfl

/-! ## Where they wrap -/

/-- R86: below `XTAL × 2^8` the quotient is inside 24 bits. -/
theorem freqWord_eq_div (h : f < xtal * 2 ^ 8) : freqWord xtal f = f * 2 ^ 16 / xtal := by
  rw [freqWord_eq_mod]
  exact Nat.mod_eq_of_lt (Nat.div_lt_of_lt_mul (by omega))

/-- R88: below `XTAL / 32` the quotient is inside 5 bits. -/
theorem ifWord_eq_div (h : 32 * f < xtal) : ifWord xtal f = f * 2 ^ 10 / xtal := by
  rw [ifWord_eq_mod]
  exact Nat.mod_eq_of_lt (Nat.div_lt_of_lt_mul (by omega))

/-- R86: at `XTAL × 2^8` the quotient is `2^24`, the first beyond 24 bits. -/
theorem freqWord_wrap (hxtal : 0 < xtal) : freqWord xtal (xtal * 2 ^ 8) = 0 := by
  have hquotient : xtal * 2 ^ 8 * 2 ^ 16 / xtal = 2 ^ 24 := by
    rw [Nat.mul_assoc, Nat.mul_div_cancel_left _ hxtal, ← Nat.pow_add]
  rw [freqWord_eq_mod, hquotient, Nat.mod_self]

/-- R88: `XTAL / 32` Hz more is 32 more in the quotient. -/
theorem ifWord_add_period (hxtal : 0 < xtal) {d : Nat} (hd : 32 * d = xtal) (f : Nat) : ifWord xtal (f + d) = ifWord xtal f := by
  have hscaled : (f + d) * 2 ^ 10 = f * 2 ^ 10 + xtal * 32 := by omega
  rw [ifWord_eq_mod, ifWord_eq_mod, hscaled, Nat.add_mul_div_left _ _ hxtal, Nat.add_mod_right]

/-- Settles O18: below its wrap each word is the quotient itself, which grows with the frequency. -/
theorem frequencyWordsAreMonotoneBelowTheirWraps : Obligations.FrequencyWordsAreMonotoneBelowTheirWraps := by
  intro xtal hxtal
  refine ⟨fun f1 f2 hle hf2 => ⟨?_, mask_lt _ _, freqWord_eq_div hf2⟩, freqWord_wrap hxtal, fun f1 f2 hle hf2 => ?_,
    fun f d hd => ifWord_add_period hxtal hd f⟩
  · rw [freqWord_eq_div (hle.trans_lt hf2), freqWord_eq_div hf2]
    gcongr
  · have hf1 : 32 * f1 < xtal := by omega
    rw [ifWord_eq_div hf1, ifWord_eq_div hf2]
    gcongr

end Sys2Proof.Machine
end

section
/-! PROOFS. The modulation words (41_modulation.md R89 to R92): what the two lookups in `modTable` find, and on which arguments each undoes the other. -/

namespace Sys2Proof.Machine

variable {s : State} {scheme : Scheme} {word : Nat}

/-! ## What the two lookups find -/

theorem modEnc_le_seven (scheme : Scheme) : modEnc scheme ≤ 7 := by cases scheme <;> decide

/-- R91: every scheme but the sentinel has a row of its own. -/
theorem modDec_modEnc (h : scheme ≠ .none) : modDec (modEnc scheme) = scheme := by
  cases scheme with
  | none => exact absurd rfl h
  | fsk2 | fsk4 | ook | msk | gfsk => rfl

/-- R91: so has every word of the table. -/
theorem modEnc_modDec : ∀ word ∈ [0, 1, 3, 4, 7], modEnc (modDec word) = word := by decide

/-! ## What the two operations answer -/

theorem exec_modEnc (hpending : s.pending = none) (scheme : Scheme) :
    exec (.modEnc scheme) s = .next (Claims.answered (.word (modEnc scheme)) s) :=
  unlessRefused_effect hpending rfl

theorem exec_modDec (hpending : s.pending = none) (hword : word ≤ 7) :
    exec (.modDec word) s = .next (Claims.answered (.scheme (modDec word)) s) :=
  unlessRefused_effect hpending (by simp [firstReason, modWordInRange, hword])

theorem exec_modDec_refused (hpending : s.pending = none) (hword : 7 < word) :
    exec (.modDec word) s = .next (Claims.refusedWith .argRange s) :=
  unlessRefused_refused hpending (by simp [firstReason, modWordInRange, hword])

/-- Settles O19: the answer is the lookup, evaluated at each scheme. -/
theorem modEncReturnsTheTableWord : Obligations.ModEncReturnsTheTableWord := by
  intro scheme s hpending
  rw [exec_modEnc hpending]
  cases scheme <;> rfl

/-- Settles O20: up to 7 the answer is the lookup, evaluated at each word; above it the range check refuses. -/
theorem modDecReturnsTheTableScheme : Obligations.ModDecReturnsTheTableScheme := by
  intro word s hpending
  match word with
  | 0 | 1 | 2 | 3 | 4 | 5 | 6 | 7 => exact exec_modDec hpending (by decide)
  | n + 8 => exact exec_modDec_refused hpending (by omega)

/-- Settles O21: both operations answer their lookups, and on the rows of the table the lookups undo each other. -/
theorem modulationRoundTrip : Obligations.ModulationRoundTrip := by
  intro s hpending
  refine ⟨fun scheme hscheme => ⟨modEnc scheme, exec_modEnc hpending scheme, ?_⟩, fun word hrow => ⟨modDec word, ?_, ?_⟩,
    exec_modEnc hpending .none⟩
  · rw [exec_modDec hpending (modEnc_le_seven scheme), modDec_modEnc hscheme]
  · have hword : word ≤ 7 := modEnc_modDec word hrow ▸ modEnc_le_seven (modDec word)
    exact exec_modDec hpending hword
  · rw [exec_modEnc hpending, modEnc_modDec word hrow]

end Sys2Proof.Machine
end

section
/-! PROOFS. CHAN_BW (42_bandwidth.md R93 to R96): which requirements take the search past each threshold of a valid table. -/

namespace Sys2Proof.Machine

variable {s : State} {p : Params} {reqBw t : ℚ} {i : Nat}

/-! ## Where the search stops -/

/-- R93: the search is `List.findIdx`, but that it answers the last index, not the length, when it finds nothing. -/
theorem bwIndex_eq_min (hp : p.Valid) (reqBw : ℚ) :
    bwIndex p.bwThreshold reqBw = min 15 (p.bwThreshold.findIdx fun u => u < reqBw) := by
  unfold bwIndex
  split
  next i hfound =>
    obtain ⟨hi, hindex⟩ := List.findIdx?_eq_some_iff_findIdx_eq.1 hfound
    have := hp.bwThreshold_length
    omega
  next hnone =>
    rw [List.findIdx?_eq_none_iff_findIdx_eq.1 hnone, hp.bwThreshold_length]
    rfl

theorem bwIndex_le (hp : p.Valid) (reqBw : ℚ) : bwIndex p.bwThreshold reqBw ≤ 15 := by
  rw [bwIndex_eq_min hp]
  exact min_le_left _ _

/-- A valid table has a threshold at every index up to 15. -/
theorem exists_bwThreshold (hp : p.Valid) (hi : i ≤ 15) : ∃ t, p.bwThreshold[i]? = some t :=
  ⟨_, List.getElem?_eq_getElem (by rw [hp.bwThreshold_length]; omega)⟩

/-- The search goes past a threshold, other than the last, exactly when the requirement is not above it: as the thresholds decrease, it is then not
above an earlier one either. -/
theorem lt_bwIndex_iff (hp : p.Valid) (hi : i ≤ 14) (ht : p.bwThreshold[i]? = some t) :
    i < bwIndex p.bwThreshold reqBw ↔ reqBw ≤ t := by
  obtain ⟨hlen, rfl⟩ := List.getElem?_eq_some_iff.1 ht
  have hearlier : ∀ j (hj : j ≤ i), p.bwThreshold[i] ≤ p.bwThreshold[j] := by
    intro j hj
    obtain rfl | hbefore := hj.eq_or_lt
    · rfl
    · exact (List.pairwise_iff_getElem.1 hp.bwThreshold_decreasing j i (hbefore.trans hlen) hlen hbefore).le
  rw [bwIndex_eq_min hp, lt_min_iff, List.lt_findIdx_iff]
  simp only [decide_eq_false_iff_not, not_lt]
  exact ⟨fun ⟨_, _, hle⟩ => hle i le_rfl, fun hle => ⟨by omega, hlen, fun j hj => hle.trans (hearlier j hj)⟩⟩

/-- R93: no threshold the search goes past is below the requirement. -/
theorem not_lt_of_lt_bwIndex (hp : p.Valid) (hi : i < bwIndex p.bwThreshold reqBw) (ht : p.bwThreshold[i]? = some t) : ¬t < reqBw :=
  not_lt.2 ((lt_bwIndex_iff hp (by have := bwIndex_le hp reqBw; omega) ht).1 hi)

/-- R93: when the threshold the search stops at is not below the requirement, it is the last. -/
theorem bwIndex_eq_last (hp : p.Valid) (ht : p.bwThreshold[bwIndex p.bwThreshold reqBw]? = some t) (hnot : ¬t < reqBw) :
    bwIndex p.bwThreshold reqBw = 15 := by
  by_contra hne
  have := bwIndex_le hp reqBw
  exact lt_irrefl _ ((lt_bwIndex_iff hp (by omega) ht).2 (not_lt.1 hnot))

/-- R93: and then no threshold at all is below it. -/
theorem not_lt_of_mem_bwThreshold (hp : p.Valid) (ht : p.bwThreshold[bwIndex p.bwThreshold reqBw]? = some t) (hnot : ¬t < reqBw) :
    ∀ u ∈ p.bwThreshold, ¬u < reqBw := by
  intro u hmem
  obtain ⟨j, hu⟩ := List.mem_iff_getElem?.1 hmem
  have hj : j ≤ bwIndex p.bwThreshold reqBw := by
    obtain ⟨hlen, -⟩ := List.getElem?_eq_some_iff.1 hu
    have hlast := bwIndex_eq_last hp ht hnot
    have := hp.bwThreshold_length
    omega
  obtain rfl | hpast := hj.eq_or_lt
  · exact Option.some.inj (ht.symm.trans hu) ▸ hnot
  · exact not_lt_of_lt_bwIndex hp hpast hu

/-- R96 (a): the index is 15 exactly when threshold 14 is passed. -/
theorem bwIndex_eq_last_iff (hp : p.Valid) :
    bwIndex p.bwThreshold reqBw = 15 ↔ ∃ t, p.bwThreshold[14]? = some t ∧ reqBw ≤ t := by
  obtain ⟨t, ht⟩ := exists_bwThreshold hp (i := 14) (by decide)
  have hindex := bwIndex_le hp reqBw
  simp only [ht, Option.some.injEq, exists_eq_left', ← lt_bwIndex_iff hp le_rfl ht]
  omega

/-- R96 (b): the index is `i` up to 14 exactly when threshold `i` is not passed and the one before it, if any, is. -/
theorem bwIndex_eq_iff (hp : p.Valid) (hi : i ≤ 14) :
    bwIndex p.bwThreshold reqBw = i ↔
      (∃ t, p.bwThreshold[i]? = some t ∧ t < reqBw) ∧ ∀ j u, j + 1 = i → p.bwThreshold[j]? = some u → reqBw ≤ u := by
  obtain ⟨t, ht⟩ := exists_bwThreshold hp (i := i) (by omega)
  have hstop : t < reqBw ↔ bwIndex p.bwThreshold reqBw ≤ i := by
    rw [← not_le, ← lt_bwIndex_iff hp hi ht, not_lt]
  simp only [ht, Option.some.injEq, exists_eq_left', hstop]
  constructor
  · exact fun hindex => ⟨hindex.le, fun j u hj hu => (lt_bwIndex_iff hp (by omega) hu).1 (by omega)⟩
  · rintro ⟨hle, hbefore⟩
    refine hle.antisymm ?_
    cases i with
    | zero => exact Nat.zero_le _
    | succ j =>
      obtain ⟨u, hu⟩ := exists_bwThreshold hp (i := j) (by omega)
      exact (lt_bwIndex_iff hp (by omega) hu).2 (hbefore j u rfl hu)

/-- R95: every threshold below a requirement is below a larger one. -/
theorem bwIndex_antitone (hp : p.Valid) : Antitone (bwIndex p.bwThreshold) := by
  intro bw1 bw2 hle
  rw [bwIndex_eq_min hp, bwIndex_eq_min hp]
  exact min_le_min_left 15 (List.findIdx_le_findIdx fun u _ hu => by simpa using (of_decide_eq_true hu).trans_le hle)

/-! ## The pair answered -/

/-- R94: the ordinal of the pair is the index the search stops at. -/
theorem ordinal_chanBw (table : List ℚ) (reqBw : ℚ) :
    4 * (chanBw table reqBw).1 + (chanBw table reqBw).2 = bwIndex table reqBw := Nat.div_add_mod _ 4

theorem chanBw_eq_iff (table : List ℚ) (reqBw : ℚ) {e m : Nat} (hm : m < 4) :
    chanBw table reqBw = (e, m) ↔ bwIndex table reqBw = 4 * e + m := by
  simp only [chanBw, bwPair, Prod.mk.injEq]
  omega

theorem exec_chanBw (hpending : s.pending = none) (reqBw : ℚ) :
    exec (.chanBw reqBw) s =
      .next (Claims.answered (.chanBw (chanBw s.params.bwThreshold reqBw).1 (chanBw s.params.bwThreshold reqBw).2) s) :=
  unlessRefused_effect hpending rfl

/-- Settles O22: the threshold at the index is below the requirement and none before it is, or none is and the index is 15. -/
theorem chanBwIsTheFirstThresholdBelow : Obligations.ChanBwIsTheFirstThresholdBelow := by
  intro reqBw s hpending hp
  have hindex := bwIndex_le hp reqBw
  have hordinal := ordinal_chanBw s.params.bwThreshold reqBw
  have hmantissa : (chanBw s.params.bwThreshold reqBw).2 < 4 := Nat.mod_lt _ (by decide)
  obtain ⟨t, ht⟩ := exists_bwThreshold hp hindex
  refine ⟨_, _, by omega, hmantissa, exec_chanBw hpending reqBw, ?_⟩
  rw [hordinal]
  by_cases hbelow : t < reqBw
  · exact .inl ⟨t, ht, hbelow, fun j u hj hu => not_lt_of_lt_bwIndex hp hj hu⟩
  · have hlast := bwIndex_eq_last hp ht hbelow
    exact .inr ⟨not_lt_of_mem_bwThreshold hp ht hbelow, by omega, by omega⟩

/-- Settles O23: the ordinal is the index, which does not grow with the requirement. -/
theorem widerRequirementNeverSelectsNarrower : Obligations.WiderRequirementNeverSelectsNarrower := by
  intro p bw1 bw2 hp hlt
  rw [ordinal_chanBw, ordinal_chanBw]
  exact bwIndex_antitone hp hlt.le

/-- Settles O24: a pair is answered exactly when the search stops at its ordinal. -/
theorem chanBwStepsAtTheThresholds : Obligations.ChanBwStepsAtTheThresholds := by
  intro p reqBw hp
  refine ⟨?_, fun e m _ hm hi => ?_⟩
  · rw [chanBw_eq_iff _ _ (by decide)]
    exact bwIndex_eq_last_iff hp
  · rw [chanBw_eq_iff _ _ hm]
    exact bwIndex_eq_iff hp hi

end Sys2Proof.Machine
end

section
/-! PROOFS. The exponents and the mantissas of 43_rate_deviation.md R97: the scaled value is a power of two times a number from 1 to below 2, and the
mantissa rounds that number's fraction. -/

namespace Sys2Proof.Machine

variable {xtal : Nat} {x y rate dev : ℚ}

/-! ## The number primitives, in the library's terms -/

theorem roundQ_eq_round (hx : 0 ≤ x) : roundQ x = round x := by
  rw [roundQ_of_nonneg hx, round_eq]

theorem flog2_eq_log (hx : 0 < x) : flog2 x = Int.log 2 x :=
  flog2_unique (mod_cast Int.zpow_log_le_self one_lt_two hx) (mod_cast Int.lt_zpow_succ_log_self one_lt_two x)

/-- R100: an exponent is inside a range that starts at 0 exactly when the scaled value is between the matching powers of two. -/
theorem flog2_mem_range_iff (hx : 0 < x) (n : Nat) : (0 ≤ flog2 x ∧ flog2 x ≤ n) ↔ 1 ≤ x ∧ x < 2 ^ (n + 1) := by
  have hlow := Int.zpow_le_iff_le_log (R := ℚ) one_lt_two (x := 0) hx
  have hhigh := Int.lt_zpow_iff_log_lt (R := ℚ) one_lt_two (x := n + 1) hx
  rw [flog2_eq_log hx, ← hlow, ← Int.lt_add_one_iff, ← hhigh]
  norm_cast

/-- R105: what a number from `2^w` to below `2^(w+1)` rounds to lies between these two, and is the upper one exactly from half a unit below it on. -/
theorem round_sub_bounds {n : Int} (hlow : (n : ℚ) ≤ y) (hhigh : y < 2 * n) :
    0 ≤ round y - n ∧ round y - n ≤ n ∧ (round y - n = n ↔ 2 * n - 1 / 2 ≤ y) := by
  have hfloor : n ≤ round y := by
    rw [round_eq]
    exact Int.le_floor.2 (by linarith)
  have hceil : round y < 2 * n + 1 := by
    rw [round_eq]
    exact Int.floor_lt.2 (by push_cast; linarith)
  have hupper : 2 * n ≤ round y ↔ 2 * (n : ℚ) - 1 / 2 ≤ y := by
    rw [round_eq, Int.le_floor, sub_le_iff_le_add]
    push_cast
    rfl
  exact ⟨by omega, by omega, by rw [← hupper]; omega⟩

/-! ## The scaled values -/

/-- A value scaled by `2^(k+w)` and divided by the power of two below the value scaled by `2^k` is between `2^w` and `2^(w+1)`. -/
theorem scaled_div_flog2_bounds (k w : Nat) (hxtal : 0 < xtal) (hx : 0 < x) :
    2 ^ w ≤ x * 2 ^ (k + w) / (xtal * 2 ^ flog2 (x * 2 ^ k / xtal)) ∧
      x * 2 ^ (k + w) / (xtal * 2 ^ flog2 (x * 2 ^ k / xtal)) < 2 * 2 ^ w := by
  have hscaled : 0 < x * 2 ^ k / xtal := by positivity
  obtain ⟨hlow, hhigh⟩ := flog2_bounds hscaled
  rw [zpow_add_one₀ two_ne_zero] at hhigh
  have hfactor : x * 2 ^ (k + w) / (xtal * 2 ^ flog2 (x * 2 ^ k / xtal)) =
      x * 2 ^ k / xtal / 2 ^ flog2 (x * 2 ^ k / xtal) * 2 ^ w := by
    rw [pow_add]
    field_simp
  have hone : 1 ≤ x * 2 ^ k / xtal / 2 ^ flog2 (x * 2 ^ k / xtal) := (one_le_div (by positivity)).2 hlow
  have htwo : x * 2 ^ k / xtal / 2 ^ flog2 (x * 2 ^ k / xtal) < 2 := (div_lt_iff₀' (by positivity)).2 hhigh
  rw [hfactor]
  exact ⟨le_mul_of_one_le_left (by positivity) hone, by gcongr⟩

theorem rateExponent_eq (xtal : Nat) (rate : ℚ) : rateExponent xtal rate = flog2 (rate * 2 ^ 20 / xtal) := by
  simp only [rateExponent, pow2_eq_zpow, zpow_ofNat]

theorem devExponent_eq (xtal : Nat) (dev : ℚ) : devExponent xtal dev = flog2 (dev * 2 ^ 14 / xtal) := by
  simp only [devExponent, pow2_eq_zpow, zpow_ofNat]

theorem rateMantissa_eq (hrate : 0 < rate) :
    rateMantissa xtal rate = round (rate * 2 ^ 28 / (xtal * 2 ^ rateExponent xtal rate)) - 256 := by
  rw [rateMantissa, roundQ_eq_round (by simp only [pow2_eq_zpow]; positivity)]
  simp only [pow2_eq_zpow, zpow_ofNat]

theorem devMantissa_eq (hdev : 0 < dev) :
    devMantissa xtal dev = round (dev * 2 ^ 17 / (xtal * 2 ^ devExponent xtal dev)) - 8 := by
  rw [devMantissa, roundQ_eq_round (by simp only [pow2_eq_zpow]; positivity)]
  simp only [pow2_eq_zpow, zpow_ofNat]

theorem scaledRate_bounds (hxtal : 0 < xtal) (hrate : 0 < rate) :
    256 ≤ rate * 2 ^ 28 / (xtal * 2 ^ rateExponent xtal rate) ∧
      rate * 2 ^ 28 / (xtal * 2 ^ rateExponent xtal rate) < 2 * 256 := by
  obtain ⟨hlow, hhigh⟩ := scaled_div_flog2_bounds 20 8 hxtal hrate
  rw [← rateExponent_eq] at hlow hhigh
  exact ⟨le_of_eq_of_le (by norm_num) hlow, lt_of_lt_of_eq hhigh (by norm_num)⟩

theorem scaledDev_bounds (hxtal : 0 < xtal) (hdev : 0 < dev) :
    8 ≤ dev * 2 ^ 17 / (xtal * 2 ^ devExponent xtal dev) ∧ dev * 2 ^ 17 / (xtal * 2 ^ devExponent xtal dev) < 2 * 8 := by
  obtain ⟨hlow, hhigh⟩ := scaled_div_flog2_bounds 14 3 hxtal hdev
  rw [← devExponent_eq] at hlow hhigh
  exact ⟨le_of_eq_of_le (by norm_num) hlow, lt_of_lt_of_eq hhigh (by norm_num)⟩

/-! ## Where the exponents are in range, and where the mantissas overflow -/

/-- R100: the exponent of a value scaled by `2^(n+1+j)` is in `0 .. n` exactly when the value is at least `XTAL / 2^(n+1+j)` and below `XTAL / 2^j`. -/
theorem flog2_scaled_mem_range_iff (n j : Nat) (hxtal : 0 < xtal) (hx : 0 < x) :
    (0 ≤ flog2 (x * 2 ^ (n + 1 + j) / xtal) ∧ flog2 (x * 2 ^ (n + 1 + j) / xtal) ≤ n) ↔
      (xtal : ℚ) / 2 ^ (n + 1 + j) ≤ x ∧ x < xtal / 2 ^ j := by
  have hxtal' : (0 : ℚ) < xtal := mod_cast hxtal
  rw [flog2_mem_range_iff (by positivity), one_le_div hxtal', div_lt_iff₀ hxtal', div_le_iff₀ (by positivity), lt_div_iff₀ (by positivity)]
  have hcancel : x * 2 ^ (n + 1 + j) = 2 ^ (n + 1) * (x * 2 ^ j) := by rw [pow_add]; ring
  rw [and_congr_right_iff, hcancel, mul_lt_mul_iff_right₀ (by positivity)]
  exact fun _ => Iff.rfl

theorem rateExponent_mem_range_iff (hxtal : 0 < xtal) (hrate : 0 < rate) :
    (0 ≤ rateExponent xtal rate ∧ rateExponent xtal rate ≤ 15) ↔ (xtal : ℚ) / 2 ^ 20 ≤ rate ∧ rate < xtal / 2 ^ 4 := by
  rw [rateExponent_eq]
  exact flog2_scaled_mem_range_iff 15 4 hxtal hrate

theorem devExponent_mem_range_iff (hxtal : 0 < xtal) (hdev : 0 < dev) :
    (0 ≤ devExponent xtal dev ∧ devExponent xtal dev ≤ 7) ↔ (xtal : ℚ) / 2 ^ 14 ≤ dev ∧ dev < xtal / 2 ^ 6 := by
  rw [devExponent_eq]
  exact flog2_scaled_mem_range_iff 7 6 hxtal hdev

theorem rateMantissa_bounds (hxtal : 0 < xtal) (hrate : 0 < rate) :
    0 ≤ rateMantissa xtal rate ∧ rateMantissa xtal rate ≤ 256 ∧
      (rateMantissa xtal rate = 256 ↔ 1023 / 2 ≤ rate * 2 ^ 28 / (xtal * 2 ^ rateExponent xtal rate)) := by
  obtain ⟨hlow, hhigh⟩ := scaledRate_bounds hxtal hrate
  obtain ⟨hnonneg, hle, hband⟩ := round_sub_bounds (n := 256) (mod_cast hlow) (mod_cast hhigh)
  rw [← rateMantissa_eq hrate] at hnonneg hle hband
  exact ⟨hnonneg, hle, hband.trans (by norm_num)⟩

theorem devMantissa_bounds (hxtal : 0 < xtal) (hdev : 0 < dev) :
    0 ≤ devMantissa xtal dev ∧ devMantissa xtal dev ≤ 8 ∧
      (devMantissa xtal dev = 8 ↔ 31 / 2 ≤ dev * 2 ^ 17 / (xtal * 2 ^ devExponent xtal dev)) := by
  obtain ⟨hlow, hhigh⟩ := scaledDev_bounds hxtal hdev
  obtain ⟨hnonneg, hle, hband⟩ := round_sub_bounds (n := 8) (mod_cast hlow) (mod_cast hhigh)
  rw [← devMantissa_eq hdev] at hnonneg hle hband
  exact ⟨hnonneg, hle, hband.trans (by norm_num)⟩

/-- Settles O27: the exponents are in range where the scaled values are, and each mantissa rounds a number from `2^w` to below `2^(w+1)`. -/
theorem exponentRangeAndMantissaOverflowBand : Obligations.ExponentRangeAndMantissaOverflowBand := by
  intro xtal rate dev hxtal hrate hdev
  obtain ⟨hMr0, hMr256, hMrBand⟩ := rateMantissa_bounds hxtal hrate
  obtain ⟨hMd0, hMd8, hMdBand⟩ := devMantissa_bounds hxtal hdev
  exact ⟨rateExponent_mem_range_iff hxtal hrate, devExponent_mem_range_iff hxtal hdev, hMr0, hMr256, hMd0, hMd8, hMrBand, hMdBand,
    fun h => by rw [h]; rfl, fun h => by rw [h]; rfl⟩

end Sys2Proof.Machine
end

section
/-! PROOFS. DRATE_DEV (43_rate_deviation.md R97, R98, R108): the clamp, the refusals and the answer. -/

namespace Sys2Proof.Machine

variable {s t : State} {baseRate skew modIndex r0 : ℚ} {scheme : Scheme}

/-! ## The clamp -/

theorem clampApplies_eq (scheme : Scheme) (r0 : ℚ) : clampApplies scheme r0 = decide (scheme = .fsk4 ∧ 300000 < r0) :=
  (Bool.decide_and _ _).symm

theorem clampedRate_eq_rateOf (scheme : Scheme) (r0 : ℚ) : clampedRate scheme r0 = Claims.rateOf scheme r0 := by
  simp [clampedRate, clampApplies_eq, fourFskMaxRate, Claims.rateOf]

theorem clampNotices_eq_noticesOf (scheme : Scheme) (r0 : ℚ) : clampNotices scheme r0 = Claims.noticesOf scheme r0 := by
  simp [clampNotices, clampApplies_eq, Claims.noticesOf]

@[simp] theorem drateDev_rate (table : List ℚ) (xtal : Nat) (r0 modIndex : ℚ) (scheme : Scheme) :
    (drateDev table xtal r0 modIndex scheme).rate = Claims.rateOf scheme r0 := clampedRate_eq_rateOf scheme r0

@[simp] theorem drateDev_dev (table : List ℚ) (xtal : Nat) (r0 modIndex : ℚ) (scheme : Scheme) :
    (drateDev table xtal r0 modIndex scheme).dev = Claims.rateOf scheme r0 * modIndex := by
  rw [← drateDev_rate table xtal r0 modIndex scheme]
  rfl

@[simp] theorem drateDev_reqBw (table : List ℚ) (xtal : Nat) (r0 modIndex : ℚ) (scheme : Scheme) :
    (drateDev table xtal r0 modIndex scheme).reqBw = 2 * (Claims.rateOf scheme r0 * modIndex + Claims.rateOf scheme r0) := by
  rw [← drateDev_rate table xtal r0 modIndex scheme]
  rfl

@[simp] theorem drateDev_clamped (table : List ℚ) (xtal : Nat) (r0 modIndex : ℚ) (scheme : Scheme) :
    (drateDev table xtal r0 modIndex scheme).clamped = decide (scheme = .fsk4 ∧ 300000 < r0) := clampApplies_eq scheme r0

theorem rateOf_fsk4_clamped (hover : 300000 < r0) : Claims.rateOf .fsk4 r0 = 300000 := if_pos ⟨rfl, hover⟩

theorem rateOf_unclamped (h : ¬(scheme = .fsk4 ∧ 300000 < r0)) : Claims.rateOf scheme r0 = r0 := if_neg h

/-- R98: but for the flag, the result of a clamped request is that of a request for 300,000. -/
theorem drateDev_max (table : List ℚ) (xtal : Nat) (modIndex : ℚ) (hover : 300000 < r0) :
    drateDev table xtal 300000 modIndex .fsk4 = { drateDev table xtal r0 modIndex .fsk4 with clamped := false } := by
  simp [drateDev, clampedRate_eq_rateOf, clampApplies_eq, rateOf_fsk4_clamped hover, rateOf_unclamped]

/-! ## The refusals and the answer -/

theorem drateDevReasons_eq_none_iff :
    firstReason (drateDevReasons r0 modIndex scheme) = none ↔
      0 < Claims.rateOf scheme r0 ∧ 0 < Claims.rateOf scheme r0 * modIndex := by
  simp [firstReason_eq_none, drateDevReasons, clampedRate_eq_rateOf]

theorem exec_drateDev (hpending : s.pending = none) (hrate : 0 < Claims.rateOf scheme (baseRate * skew))
    (hdev : 0 < Claims.rateOf scheme (baseRate * skew) * modIndex) :
    exec (.drateDev baseRate skew modIndex scheme) s =
      .next (Claims.answered (.drd (drateDev s.params.bwThreshold s.xtal (baseRate * skew) modIndex scheme))
        { s with diag := s.diag ++ Claims.noticesOf scheme (baseRate * skew) }) := by
  rw [← clampNotices_eq_noticesOf]
  exact unlessRefused_effect hpending (drateDevReasons_eq_none_iff.2 ⟨hrate, hdev⟩)

theorem exec_drateDev_unclamped (hpending : s.pending = none) (h : ¬(scheme = .fsk4 ∧ 300000 < baseRate * skew))
    (hrate : 0 < baseRate * skew) (hmod : 0 < modIndex) :
    exec (.drateDev baseRate skew modIndex scheme) s =
      .next (Claims.answered (.drd (drateDev s.params.bwThreshold s.xtal (baseRate * skew) modIndex scheme)) s) := by
  have hrateOf := rateOf_unclamped h
  rw [exec_drateDev hpending (by rwa [hrateOf]) (by rw [hrateOf]; positivity), Claims.noticesOf, if_neg h, List.append_nil]

/-- R108: the rate is checked first. -/
theorem exec_drateDev_rateNonpos (hpending : s.pending = none) (hrate : Claims.rateOf scheme (baseRate * skew) ≤ 0) :
    exec (.drateDev baseRate skew modIndex scheme) s = .next (Claims.refusedWith .rateNonpos s) :=
  unlessRefused_refused hpending (by simp [drateDevReasons, firstReason, clampedRate_eq_rateOf, hrate])

theorem exec_drateDev_devNonpos (hpending : s.pending = none) (hrate : 0 < Claims.rateOf scheme (baseRate * skew))
    (hdev : Claims.rateOf scheme (baseRate * skew) * modIndex ≤ 0) :
    exec (.drateDev baseRate skew modIndex scheme) s = .next (Claims.refusedWith .devNonpos s) :=
  unlessRefused_refused hpending (by simp [drateDevReasons, firstReason, clampedRate_eq_rateOf, hrate, hdev])

/-- A DRATE_DEV that answers a result was not refused, and the result is the encoding. -/
theorem drd_of_exec_drateDev {d : DrdResult} (h : exec (.drateDev baseRate skew modIndex scheme) s = .next t)
    (hlog : t.hostLog = s.hostLog ++ [.answer (.result (.drd d))]) :
    s.pending = none ∧ 0 < d.rate ∧ d = drateDev s.params.bwThreshold s.xtal (baseRate * skew) modIndex scheme := by
  have h : execDrateDev baseRate skew modIndex scheme s = .next t := h
  rw [execDrateDev] at h
  rcases unlessRefused_cases (drateDevReasons (baseRate * skew) modIndex scheme) s _ with ⟨r, hrefused⟩ | ⟨hpending, hnone, heffect⟩
  · cases hrefused.symm.trans h
    simp at hlog
  · cases heffect.symm.trans h
    obtain rfl : drateDev s.params.bwThreshold s.xtal (baseRate * skew) modIndex scheme = d := by simpa using hlog
    exact ⟨hpending, by rw [drateDev_rate]; exact (drateDevReasons_eq_none_iff.1 hnone).1, rfl⟩

/-- Settles O25: the exponents are the model's, whose bounds are those of `flog2`, and the mantissas round by a floor. -/
theorem drateDevEncodesRateAndDeviation : Obligations.DrateDevEncodesRateAndDeviation := by
  intro baseRate skew modIndex scheme s hpending hxtal
  refine ⟨exec_drateDev_rateNonpos hpending, exec_drateDev_devNonpos hpending, fun hrate hdev => ?_⟩
  obtain ⟨hEr, hEr'⟩ := flog2_bounds (x := Claims.rateOf scheme (baseRate * skew) * 2 ^ 20 / s.xtal) (by positivity)
  obtain ⟨hEd, hEd'⟩ := flog2_bounds (x := Claims.rateOf scheme (baseRate * skew) * modIndex * 2 ^ 14 / s.xtal) (by positivity)
  rw [← rateExponent_eq] at hEr hEr'
  rw [← devExponent_eq] at hEd hEd'
  refine ⟨_, _, _, _, _, rfl, rfl, hEr, hEr', hEd, hEd', exec_chanBw hpending _, ?_⟩
  rw [exec_drateDev hpending hrate hdev]
  simp only [drateDev, clampedRate_eq_rateOf, clampApplies_eq, rateMantissa_eq hrate, devMantissa_eq hdev, round_eq, carsonBw]
  rfl

/-- Settles O26: a clamped request differs from one for 300,000 by the flag and the notice alone. -/
theorem fourFskRateIsClampedAt300000 : Obligations.FourFskRateIsClampedAt300000 := by
  intro baseRate skew modIndex scheme s hpending hmod
  constructor
  · rintro rfl hover
    have hrateOf := rateOf_fsk4_clamped hover
    have hclamped := exec_drateDev (modIndex := modIndex) hpending (by rw [hrateOf]; norm_num) (by rw [hrateOf]; positivity)
    have hmax := exec_drateDev_unclamped (baseRate := 300000) (skew := 1) (scheme := .fsk4) hpending (by norm_num) (by norm_num) hmod
    rw [Claims.noticesOf, if_pos ⟨rfl, hover⟩] at hclamped
    rw [mul_one, drateDev_max _ _ _ hover] at hmax
    refine ⟨_, ?_, ?_, ?_, ?_, hclamped, hmax⟩ <;> simp [hrateOf, hover]
  · intro hrate hscheme
    have hunclamped : ¬(scheme = .fsk4 ∧ 300000 < baseRate * skew) := by rwa [not_and_or, not_lt]
    refine ⟨_, ?_, ?_, exec_drateDev_unclamped hpending hunclamped hrate hmod⟩
    · exact (drateDev_rate ..).trans (rateOf_unclamped hunclamped)
    · exact (drateDev_clamped ..).trans (decide_eq_false hunclamped)

end Sys2Proof.Machine
end

section
/-! PROOFS. EFF_RATE and BYTE_TIME (43_rate_deviation.md R101 to R103): the inverse formula, and how far it takes the encoded rate from the rate. -/

namespace Sys2Proof.Machine

variable {s : State} {xtal : Nat} {rate : ℚ}

theorem effRate_eq (xtal : Nat) (p : RadioRegisterParms) :
    effRate xtal p = (xtal : ℚ) / 2 ^ 28 * (256 + (p.drate_m : ℚ)) * 2 ^ p.drate_e := by
  simp [effRate, pow2_eq_zpow, zpow_ofNat]

theorem effRate_pos (hxtal : 0 < xtal) (p : RadioRegisterParms) : 0 < effRate xtal p := by
  rw [effRate_eq]
  positivity

theorem exec_effRate (hpending : s.pending = none) (p : RadioRegisterParms) :
    exec (.effRate p) s = .next (Claims.answered (.rational (effRate s.xtal p)) s) :=
  unlessRefused_effect hpending rfl

/-- Settles O29: the answer is `effRate`, the formula itself. -/
theorem effRateIsTheInverseFormula : Obligations.EffRateIsTheInverseFormula := by
  intro p s hpending
  rw [← effRate_eq]
  exact ⟨exec_effRate hpending p, fun hxtal => effRate_pos hxtal p⟩

/-! ## BYTE_TIME -/

/-- R90, R103: 4FSK has the one word 4. -/
theorem modDec_eq_fsk4_iff (word : Nat) : modDec word = .fsk4 ↔ word = 4 := by
  match word with
  | 0 | 1 | 2 | 3 | 4 | 5 | 6 | 7 => decide
  | n + 8 => simp [modDec, modTable]

theorem byteTime_eq (xtal : Nat) (p : RadioRegisterParms) :
    byteTime xtal p =
      8000000 / effRate xtal p / (if p.mod = 4 then 2 else 1) * (if p.fecwhite % 2 = 1 then 2 else 1) := by
  have hbit : bitAt p.fecwhite 0 = true ↔ p.fecwhite % 2 = 1 := by simp [bitAt]
  simp only [byteTime, modDec_eq_fsk4_iff, hbit]
  split_ifs <;> ring

theorem exec_byteTime (hpending : s.pending = none) (p : RadioRegisterParms) :
    exec (.byteTime p) s = .next (Claims.answered (.rational (byteTime s.xtal p)) s) :=
  unlessRefused_effect hpending rfl

/-- Settles O30: both operations answer their formulas. -/
theorem byteTimeHalvesFor4fskAndDoublesForFec : Obligations.ByteTimeHalvesFor4fskAndDoublesForFec := by
  intro p s hpending hxtal
  refine ⟨effRate s.xtal p, effRate_pos hxtal p, exec_effRate hpending p, ?_⟩
  rw [← byteTime_eq]
  exact exec_byteTime hpending p

/-! ## The decoded rate -/

/-- R102: rounding is off by at most half a unit, and the scaled rate is at least 256 units. -/
theorem abs_effRate_sub_le (hxtal : 0 < xtal) (hrate : 0 < rate) {p : RadioRegisterParms}
    (hm : (p.drate_m : Int) = rateMantissa xtal rate) (he : (p.drate_e : Int) = rateExponent xtal rate) :
    |effRate xtal p - rate| ≤ rate / 2 ^ 9 := by
  rw [rateMantissa_eq hrate] at hm
  set y := rate * 2 ^ 28 / (xtal * 2 ^ rateExponent xtal rate) with hy
  set u : ℚ := xtal * 2 ^ rateExponent xtal rate / 2 ^ 28 with hu
  have hunit : 0 < u := by positivity
  have hrateEq : rate = y * u := by rw [hy, hu]; field_simp
  have heffEq : effRate xtal p = round y * u := by
    have hround : (256 : ℚ) + p.drate_m = round y := mod_cast (by omega : (256 : Int) + p.drate_m = round y)
    rw [effRate_eq, hround, hu, ← he, zpow_natCast]
    ring
  have hlow : 256 * u ≤ y * u := by
    gcongr
    exact (scaledRate_bounds hxtal hrate).1
  calc |effRate xtal p - rate|
      = |y - round y| * u := by rw [heffEq, hrateEq, ← sub_mul, abs_mul, abs_of_pos hunit, abs_sub_comm]
    _ ≤ 1 / 2 * u := by gcongr; exact abs_sub_round y
    _ ≤ y * u / 2 ^ 9 := by linarith
    _ = rate / 2 ^ 9 := by rw [← hrateEq]

/-- Settles O28: in the domain the masks change neither the mantissa nor the exponent. -/
theorem decodedRateIsCloseInTheDomain : Obligations.DecodedRateIsCloseInTheDomain := by
  intro baseRate skew modIndex scheme s t d p hxtal hexec hlog hEr0 hEr15 hMr hm he
  obtain ⟨hpending, hrate, hd⟩ := drd_of_exec_drateDev hexec hlog
  have hM : d.drate_m = mask 8 (rateMantissa s.xtal d.rate) := by rw [hd]; rfl
  have hE : d.drate_e = mask 4 (rateExponent s.xtal d.rate) := by rw [hd]; rfl
  refine ⟨_, exec_effRate hpending p, abs_effRate_sub_le hxtal hrate ?_ ?_⟩
  · rw [hm, hM]
    exact mask_of_inside (rateMantissa_bounds hxtal hrate).1 (by norm_num; omega)
  · rw [he, hE]
    exact mask_of_inside hEr0 (by norm_num; omega)

end Sys2Proof.Machine
end

section
/-! PROOFS. The serialized parms (44_config_encode.md R112 to R114, 30_encoding.md R71): what each byte holds, and that a field inside its width is read
back from its byte. -/

namespace Sys2Proof.Machine

variable {s : State} {p : RadioRegisterParms} {n hi : Nat} {l : List Byte}

/-! ## One field in one byte -/

theorem toNat_toByte (hn : n < 2 ^ 8) : (toByte n).toNat = n := Nat.mod_eq_of_lt hn

theorem bitField_of_lt (hn : n < 2 ^ (hi + 1)) : bitField n hi 0 = n := by
  simp [bitField, Nat.mod_eq_of_lt hn]

theorem bytesBE24_eq (n : Nat) :
    bytesBE24 n = [BitVec.ofNat 8 (n / 2 ^ 16), BitVec.ofNat 8 (n / 2 ^ 8 % 256), BitVec.ofNat 8 (n % 256)] := by
  simp [bytesBE24, toByte, bitField, ← BitVec.toNat_inj]

/-- The bytes of `bytesBE24` read back in big-endian order. -/
theorem wordBE24_bitFields (hn : n < 2 ^ 24) :
    wordBE24 (toByte (bitField n 23 16)) (toByte (bitField n 15 8)) (toByte (bitField n 7 0)) = n := by
  simp only [wordBE24, toByte, bitField, BitVec.toNat_ofNat]
  omega

/-! ## The whole record -/

theorem parmsDes_eq_none (hl : l.length ≠ 18) : parmsDes l = none := by
  unfold parmsDes
  split
  · exact absurd rfl hl
  · rfl

/-- R114: each field is in one byte, or the three of the frequency word, which hold it whole. -/
theorem parmsDes_parmsSer (hp : parmsInWidth p = true) : parmsDes (parmsSer p) = some p := by
  rw [Laws.ArgumentRange.parmsInWidth_iff, Laws.ArgumentRange.ParmsRange] at hp
  simp (disch := omega) only [parmsSer, bytesBE24, List.cons_append, List.nil_append, parmsDes, wordBE24_bitFields, toNat_toByte,
    bitField_of_lt]

/-! ## What the two operations answer -/

theorem exec_parmsSer (hpending : s.pending = none) (hp : parmsInWidth p = true) :
    exec (.parmsSer p) s = .next (Claims.answered (.bytes (parmsSer p)) s) :=
  unlessRefused_effect hpending (by simp [firstReason, hp])

theorem exec_parmsSer_refused (hpending : s.pending = none) (hp : parmsInWidth p = false) :
    exec (.parmsSer p) s = .next (Claims.refusedWith .argRange s) :=
  unlessRefused_refused hpending (by simp [firstReason, hp])

theorem exec_parmsDes (hpending : s.pending = none) (hl : parmsDes l = some p) :
    exec (.parmsDes l) s = .next (Claims.answered (.parms p) s) := by
  have hexec : exec (.parmsDes l) s = unlessRefused [] s (.next (respond (.parms p) s)) := by
    simp only [exec, execParmsDes, hl]
  rw [hexec]
  exact unlessRefused_effect hpending rfl

theorem exec_parmsDes_refused (hpending : s.pending = none) (hl : l.length ≠ 18) :
    exec (.parmsDes l) s = .next (Claims.refusedWith .argRange s) := by
  have hexec : exec (.parmsDes l) s = unlessRefused [(true, .argRange)] s (.next s) := by
    simp only [exec, execParmsDes, parmsDes_eq_none hl]
  rw [hexec]
  exact unlessRefused_refused hpending rfl

/-- Settles O33: the answer is `parmsSer`, whose first three bytes are the frequency word's. -/
theorem parmsSerLaysOutEighteenBytes : Obligations.ParmsSerLaysOutEighteenBytes := by
  intro p s hpending
  refine ⟨fun hp => ?_, exec_parmsSer_refused hpending⟩
  rw [exec_parmsSer hpending hp, parmsSer, bytesBE24_eq]
  rfl

/-- Settles O34: the low bits the record keeps of a byte are its remainders. -/
theorem parmsDesDiscardsHighBits : Obligations.ParmsDesDiscardsHighBits := by
  intro s hpending
  refine ⟨fun b0 b1 b2 b3 b4 b5 b6 b7 b8 b9 b10 b11 b12 b13 b14 b15 b16 b17 => ?_, fun l => exec_parmsDes_refused hpending⟩
  exact exec_parmsDes hpending (by simp [parmsDes, wordBE24, bitField])

/-- Settles O35: PARMS_SER answers `parmsSer`, which `parmsDes` undoes. -/
theorem parmsSerThenDesIsIdentity : Obligations.ParmsSerThenDesIsIdentity := fun _ _ hpending hp =>
  ⟨_, exec_parmsSer hpending hp, exec_parmsDes hpending (parmsDes_parmsSer hp)⟩

end Sys2Proof.Machine
end

section
/-! PROOFS. ENCODE_CONFIG (44_config_encode.md R109 to R111): its refusals and its answer, and the width of each field. -/

namespace Sys2Proof.Machine

variable {s t : State} {p : Params} {cfg : RadioLinkConfig} {parms : RadioRegisterParms}

/-! ## The refusals and the answer -/

theorem exec_encodeConfig (hpending : s.pending = none) (hrate : 0 < Claims.rateOf cfg.scheme (cfg.baseRate * cfg.skew))
    (hdev : 0 < Claims.rateOf cfg.scheme (cfg.baseRate * cfg.skew) * cfg.modIndex) :
    exec (.encodeConfig cfg) s =
      .next (Claims.answered (.parms (encodeConfig s.params s.xtal cfg))
        { s with diag := s.diag ++ Claims.noticesOf cfg.scheme (cfg.baseRate * cfg.skew) }) := by
  rw [← clampNotices_eq_noticesOf]
  exact unlessRefused_effect hpending (drateDevReasons_eq_none_iff.2 ⟨hrate, hdev⟩)

/-- R109: the refusals are DRATE_DEV's, the rate checked first. -/
theorem exec_encodeConfig_rateNonpos (hpending : s.pending = none)
    (hrate : Claims.rateOf cfg.scheme (cfg.baseRate * cfg.skew) ≤ 0) :
    exec (.encodeConfig cfg) s = .next (Claims.refusedWith .rateNonpos s) :=
  unlessRefused_refused hpending (by simp [encodeConfigReasons, drateDevReasons, firstReason, clampedRate_eq_rateOf, hrate])

theorem exec_encodeConfig_devNonpos (hpending : s.pending = none) (hrate : 0 < Claims.rateOf cfg.scheme (cfg.baseRate * cfg.skew))
    (hdev : Claims.rateOf cfg.scheme (cfg.baseRate * cfg.skew) * cfg.modIndex ≤ 0) :
    exec (.encodeConfig cfg) s = .next (Claims.refusedWith .devNonpos s) :=
  unlessRefused_refused hpending (by simp [encodeConfigReasons, drateDevReasons, firstReason, clampedRate_eq_rateOf, hrate, hdev])

theorem encodeConfig_fecwhite (p : Params) (xtal : Nat) (cfg : RadioLinkConfig) :
    (encodeConfig p xtal cfg).fecwhite = (if cfg.whitening then 2 else 0) + (if cfg.fec then 1 else 0) := by
  simp [encodeConfig, flagBit]

theorem encodeConfig_pktlen (p : Params) (xtal : Nat) (cfg : RadioLinkConfig) :
    (encodeConfig p xtal cfg).pktlen = cfg.pktLen % 256 := mask_natCast 8 _

theorem encodeConfig_preamble (p : Params) (xtal : Nat) (cfg : RadioLinkConfig) :
    (encodeConfig p xtal cfg).preamble = cfg.preambleSel % 8 := mask_natCast 3 _

/-- Settles O31: the encoding takes its words from the same functions as the single operations, and the masks of the rest are remainders. -/
theorem encodeConfigFillsEveryField : Obligations.EncodeConfigFillsEveryField := by
  intro cfg s hpending
  refine ⟨exec_encodeConfig_rateNonpos hpending, exec_encodeConfig_devNonpos hpending, fun hrate hdev => ?_⟩
  refine ⟨_, _, _, _, exec_freqWord hpending _, exec_ifWord hpending _, exec_modEnc hpending _, exec_drateDev hpending hrate hdev, ?_⟩
  rw [exec_encodeConfig hpending hrate hdev, ← encodeConfig_fecwhite s.params s.xtal, ← encodeConfig_pktlen s.params s.xtal,
    ← encodeConfig_preamble s.params s.xtal]
  rfl

/-! ## The widths -/

theorem chanBw_le_three (hp : p.Valid) (reqBw : ℚ) :
    (chanBw p.bwThreshold reqBw).1 ≤ 3 ∧ (chanBw p.bwThreshold reqBw).2 ≤ 3 := by
  have hindex := bwIndex_le hp reqBw
  simp only [chanBw, bwPair]
  omega

theorem mask_le (w : Nat) (v : Int) : mask w v ≤ 2 ^ w - 1 := Nat.le_pred_of_lt (mask_lt w v)

theorem flagBit_le_one (b : Bool) : flagBit b ≤ 1 := by cases b <;> decide

/-- R114: a mask keeps the words inside their widths, the search's index the bandwidth fields, the parameters' constraint `SYNC_MODE`. -/
theorem parmsInWidth_encodeConfig (hp : p.Valid) (xtal : Nat) (cfg : RadioLinkConfig) :
    parmsInWidth (encodeConfig p xtal cfg) = true := by
  have hwhitening := flagBit_le_one cfg.whitening
  have hfec := flagBit_le_one cfg.fec
  have hfecwhite : 2 * flagBit cfg.whitening + flagBit cfg.fec ≤ 255 := by omega
  rw [Laws.ArgumentRange.parmsInWidth_iff]
  simp only [Laws.ArgumentRange.ParmsRange, encodeConfig, freqWord, ifWord, drateDev]
  exact ⟨mask_le 24 _, mask_le 5 _, modEnc_le_seven _, Nat.le_of_lt_succ hp.syncMode_width, by decide, by decide,
    (chanBw_le_three hp _).2, (chanBw_le_three hp _).1, mask_le 8 _, mask_le 4 _, mask_le 3 _, mask_le 3 _, hfecwhite, mask_le 8 _,
    flagBit_le_one _, mask_le 3 _⟩

/-- An ENCODE_CONFIG that answers a parms was not refused, and the parms is the encoding. -/
theorem parms_of_exec_encodeConfig (h : exec (.encodeConfig cfg) s = .next t)
    (hlog : t.hostLog = s.hostLog ++ [.answer (.result (.parms parms))]) : encodeConfig s.params s.xtal cfg = parms := by
  have h : execEncodeConfig cfg s = .next t := h
  rw [execEncodeConfig] at h
  rcases unlessRefused_cases (encodeConfigReasons cfg) s _ with ⟨r, hrefused⟩ | ⟨-, -, heffect⟩
  · cases hrefused.symm.trans h
    simp at hlog
  · cases heffect.symm.trans h
    simpa using hlog

/-- Settles O32: the parms answered is the encoding, whose fields are inside their widths. -/
theorem encodedConfigIsInsideItsWidths : Obligations.EncodedConfigIsInsideItsWidths := by
  intro cfg s t parms hp h hlog
  rw [← parms_of_exec_encodeConfig h hlog]
  exact parmsInWidth_encodeConfig hp s.xtal cfg

end Sys2Proof.Machine
end

section
/-! PROOFS. The envelope codec (45_envelope.md R117 to R123): the three builders are the wire form of 30_encoding.md R66, and the parser gives back
the type code and the payload of every wire form whose payload fits its length byte. -/

namespace Sys2Proof.Machine

variable {s : State} {p : Params} {parms : RadioRegisterParms} {type len : Byte} {payload rest l block : List Byte} {countdown : Nat}

/-! ## The builders and the wire form -/

theorem envInit_eq_encodeEnvelope (p : Params) (parms : RadioRegisterParms) :
    envInit p parms = encodeEnvelope p.cmdInit (parmsSer parms) := rfl

theorem envStatusQuery_eq_encodeEnvelope (p : Params) : envStatusQuery p = encodeEnvelope p.cmdStatusQuery [] := rfl

theorem envTxBlock_eq_encodeEnvelope (p : Params) (countdown : Nat) (block : List Byte) :
    envTxBlock p countdown block = encodeEnvelope p.cmdTxBlock (toByte block.length :: toByte countdown :: block) := rfl

/-! ## The parser -/

theorem envKind_cmdInit (p : Params) : envKind p p.cmdInit = .init := if_pos rfl

/-- Distinct type codes (30_encoding.md R67) tell the commands apart. -/
theorem envKind_cmdStatusQuery (hp : p.Valid) : envKind p p.cmdStatusQuery = .statusQuery := by
  obtain ⟨hinitQuery, -, -⟩ := hp.cmd_distinct
  simp [envKind, hinitQuery.symm]

theorem envKind_cmdTxBlock (hp : p.Valid) : envKind p p.cmdTxBlock = .txBlock := by
  obtain ⟨-, hinitTx, hqueryTx⟩ := hp.cmd_distinct
  simp [envKind, hinitTx.symm, hqueryTx.symm]

theorem envParse_short (p : Params) (hl : l.length < 2) :
    envParse p l = { kind := .short, type := none, len := none, payload := [], complete := false, trailing := 0 } := by
  match l, hl with
  | [], _ => rfl
  | [_], _ => rfl

theorem envParse_complete (p : Params) (type : Byte) (hlen : len.toNat ≤ rest.length) :
    envParse p (type :: len :: rest) =
      { kind := envKind p type, type := some type, len := some len.toNat, payload := rest.take len.toNat, complete := true,
        trailing := rest.length - len.toNat } := by
  simp [envParse, hlen]

theorem envParse_incomplete (p : Params) (type : Byte) (hlen : rest.length < len.toNat) :
    envParse p (type :: len :: rest) =
      { kind := envKind p type, type := some type, len := some len.toNat, payload := rest, complete := false, trailing := 0 } := by
  simp [envParse, hlen, List.take_of_length_le hlen.le, Nat.sub_eq_zero_of_le hlen.le]

/-- The length byte of a wire form whose payload fits it is the length of that payload. -/
theorem envParse_encodeEnvelope (p : Params) (type : Byte) (hfits : payload.length ≤ 255) :
    envParse p (encodeEnvelope type payload) =
      { kind := envKind p type, type := some type, len := some payload.length, payload := payload, complete := true, trailing := 0 } := by
  have hlen : (toByte payload.length).toNat = payload.length := toNat_toByte (by omega)
  exact (envParse_complete p type hlen.le).trans (by simp [hlen])

theorem txBlockBody_of_complete {r : ParseResult} (hkind : r.kind = .txBlock) (hcomplete : r.complete = true) :
    txBlockBody r = splitTxBlock r.payload := by
  simp [txBlockBody, hkind, hcomplete]

/-- Settles O39: each builder's envelope is the wire form of its payload, which `envParse` gives back. -/
theorem builtEnvelopesParseBack : Obligations.BuiltEnvelopesParseBack := by
  intro p hp
  refine ⟨fun parms hparms => ?_, ?_, fun countdown block _ hblock => ?_⟩
  · rw [envInit_eq_encodeEnvelope, envParse_encodeEnvelope p _ (by simp), envKind_cmdInit]
    exact ⟨_, rfl, rfl, rfl, rfl, rfl, parmsDes_parmsSer hparms⟩
  · rw [envStatusQuery_eq_encodeEnvelope, envParse_encodeEnvelope p _ (by simp), envKind_cmdStatusQuery hp]
    rfl
  · rw [envTxBlock_eq_encodeEnvelope, envParse_encodeEnvelope p _ (by simp; omega), envKind_cmdTxBlock hp]
    exact ⟨_, rfl, rfl, rfl, rfl, rfl, txBlockBody_of_complete rfl rfl⟩

/-! ## The wire commands -/

/-- R113: 18 bytes always have a parms. -/
theorem exists_parmsDes_eq_some (hl : l.length = 18) : ∃ parms, parmsDes l = some parms := by
  match l, hl with
  | [_, _, _, _, _, _, _, _, _, _, _, _, _, _, _, _, _, _], _ => exact ⟨_, rfl⟩

theorem exec_cmdInit (hpending : s.pending = none) (hfits : payload.length ≤ 255) :
    exec (.cmdInit payload) s =
      .next (Claims.answered (.command
        { kind := .init, type := some s.params.cmdInit, len := some payload.length, payload := payload, complete := true, trailing := 0 }
        (.init (parmsDes payload))) s) := by
  rw [← envKind_cmdInit s.params, ← envParse_encodeEnvelope s.params _ hfits]
  exact unlessRefused_effect hpending rfl

theorem exec_cmdStatusQuery (hpending : s.pending = none) (hp : s.params.Valid) (hfits : payload.length ≤ 255) :
    exec (.cmdStatusQuery payload) s =
      .next (Claims.answered (.command
        { kind := .statusQuery, type := some s.params.cmdStatusQuery, len := some payload.length, payload := payload, complete := true,
          trailing := 0 }
        .statusQuery) s) := by
  rw [← envKind_cmdStatusQuery hp, ← envParse_encodeEnvelope s.params _ hfits]
  exact unlessRefused_effect hpending rfl

theorem exec_cmdTxBlock (hpending : s.pending = none) (hp : s.params.Valid) (hfits : payload.length ≤ 255) :
    exec (.cmdTxBlock payload) s =
      .next (Claims.answered (.command
        { kind := .txBlock, type := some s.params.cmdTxBlock, len := some payload.length, payload := payload, complete := true,
          trailing := 0 }
        (.txBlock (splitTxBlock payload))) s) := by
  rw [← envKind_cmdTxBlock hp, ← envParse_encodeEnvelope s.params _ hfits]
  exact unlessRefused_effect hpending rfl

/-- Settles O40: the parse of a wire form is its payload's; an INIT body is what `parmsDes` gives, as in PARMS_DES. -/
theorem wireCommandsAnswerTheirDecode : Obligations.WireCommandsAnswerTheirDecode := by
  intro payload s hpending hp hfits
  refine ⟨⟨parmsDes payload, exec_cmdInit hpending hfits, parmsDes_eq_none, fun hl => ?_, ?_⟩,
    exec_cmdStatusQuery hpending hp hfits, exec_cmdTxBlock hpending hp hfits⟩
  · obtain ⟨parms, hparms⟩ := exists_parmsDes_eq_some hl
    exact ⟨parms, exec_parmsDes hpending hparms, hparms⟩
  · rintro parms hwidth rfl
    exact parmsDes_parmsSer hwidth

/-! ## What the four operations answer -/

theorem exec_envInit (hpending : s.pending = none) (hparms : parmsInWidth parms = true) :
    exec (.envInit parms) s = .next (Claims.answered (.bytes (envInit s.params parms)) s) :=
  unlessRefused_effect hpending (by simp [firstReason, hparms])

theorem exec_envInit_refused (hpending : s.pending = none) (hparms : parmsInWidth parms = false) :
    exec (.envInit parms) s = .next (Claims.refusedWith .argRange s) :=
  unlessRefused_refused hpending (by simp [firstReason, hparms])

theorem exec_envStatusQuery (hpending : s.pending = none) :
    exec .envStatusQuery s = .next (Claims.answered (.bytes (envStatusQuery s.params)) s) :=
  unlessRefused_effect hpending rfl

theorem exec_envTxBlock (hpending : s.pending = none) (hcountdown : countdown ≤ 255) (hblock : block.length ≤ 253) :
    exec (.envTxBlock countdown block) s = .next (Claims.answered (.bytes (envTxBlock s.params countdown block)) s) :=
  unlessRefused_effect hpending (by simp [firstReason, byteInRange, blockTooLong, hcountdown, hblock])

theorem exec_envTxBlock_argRange (hpending : s.pending = none) (hcountdown : 255 < countdown) (block : List Byte) :
    exec (.envTxBlock countdown block) s = .next (Claims.refusedWith .argRange s) :=
  unlessRefused_refused hpending (by simp [firstReason, byteInRange, hcountdown])

/-- The countdown is checked before the block (60_exceptions.md R156). -/
theorem exec_envTxBlock_blockTooLong (hpending : s.pending = none) (hcountdown : countdown ≤ 255) (hblock : 253 < block.length) :
    exec (.envTxBlock countdown block) s = .next (Claims.refusedWith .blockTooLong s) :=
  unlessRefused_refused hpending (by simp [firstReason, byteInRange, blockTooLong, hcountdown, hblock])

theorem exec_envParse (hpending : s.pending = none) (l : List Byte) :
    exec (.envParse l) s = .next (Claims.answered (.parsed (envParse s.params l)) s) :=
  unlessRefused_effect hpending rfl

/-- Settles O36: the INIT envelope is its two header bytes before `parmsSer`, and its refusal is PARMS_SER's. -/
theorem envInitAndEnvStatusQueryBuildTheirEnvelopes : Obligations.EnvInitAndEnvStatusQueryBuildTheirEnvelopes := fun _ hpending =>
  ⟨fun _ hparms => ⟨_, exec_parmsSer hpending hparms, parmsSer_length _, exec_envInit hpending hparms⟩,
    fun _ => exec_envInit_refused hpending, exec_envStatusQuery hpending⟩

/-- Settles O37: by the two refusal conditions, the countdown's first. -/
theorem envTxBlockBuildsItsEnvelope : Obligations.EnvTxBlockBuildsItsEnvelope := by
  intro countdown block s hpending
  split
  next hcountdown => exact exec_envTxBlock_argRange hpending hcountdown block
  next hcountdown =>
    split
    next hblock => exact exec_envTxBlock_blockTooLong hpending (not_lt.1 hcountdown) hblock
    next hblock => exact exec_envTxBlock hpending (not_lt.1 hcountdown) (not_lt.1 hblock)

/-- Settles O38: by the number of bytes, fewer than 2, or as many as the length byte announces, or fewer. -/
theorem envParseIsTotal : Obligations.EnvParseIsTotal := by
  intro s hpending
  refine ⟨fun l hl => ?_, fun type len rest => ⟨envKind s.params type, rfl, ?_⟩, fun r => ?_⟩
  · rw [exec_envParse hpending, envParse_short _ hl]
  · rw [exec_envParse hpending]
    split
    next hlen => rw [envParse_complete _ _ hlen]
    next hlen => rw [envParse_incomplete _ _ (not_le.1 hlen)]
  · split
    next h => exact txBlockBody_of_complete h.1 h.2
    next h => exact if_neg (by simpa using h)

end Sys2Proof.Machine
end

section
/-! PROOFS. The status payload (46_status_decode.md R125 to R133): each field of the record as a function of the payload's bytes, how far the record
determines them, the signal strength and the state names; and the reply that is too short for the FIFO bytes. -/

namespace Sys2Proof.Machine

variable {s : State} {p : Params} {b c : Byte} {f g : Nat → Byte} {l bytes : List Byte} {r code : Nat}

/-! ## One byte, in the library's terms -/

theorem bitAt_toNat (b : Byte) (i : Nat) : bitAt b.toNat i = b.getLsbD i := by
  rw [bitAt, BitVec.getLsbD, Nat.testBit_eq_decide_div_mod_eq, beq_eq_decide]

theorem bitField_zero (n hi : Nat) : bitField n hi 0 = n % 2 ^ (hi + 1) := by
  simp [bitField]

theorem sext8_eq_toInt (b : Byte) : sext8 b = b.toInt := by
  rw [sext8, BitVec.toInt_eq_toNat_cond]
  split <;> split <;> omega

/-- The flag and the count of a byte (30_encoding.md R76, R79, R80) are all of it. -/
theorem byte_eq_of_bit7_of_low7 (hbit : b.getLsbD 7 = c.getLsbD 7) (hlow : b.toNat % 128 = c.toNat % 128) : b = c := by
  simp only [BitVec.getLsbD, Nat.testBit_eq_decide_div_mod_eq, decide_eq_decide] at hbit
  have hb := b.isLt
  have hc := c.isLt
  exact BitVec.eq_of_toNat_eq (by omega)

theorem wordBE16_inj {b' c' : Byte} (h : wordBE16 b b' = wordBE16 c c') : b = c ∧ b' = c' := by
  have hb := b'.isLt
  have hc := c'.isLt
  unfold wordBE16 at h
  exact ⟨BitVec.eq_of_toNat_eq (by omega), BitVec.eq_of_toNat_eq (by omega)⟩

/-! ## The record -/

/-- The record of R125 with byte `k` of the payload at `f k`; `statusDecode_eq_some` ties it to the model's decoder. -/
def statusRecord (f : Nat → Byte) : StatusRecord where
  partNum := f 0
  version := f 1
  freqOffRaw := f 2
  freqOff := (f 2).toInt
  crcOk := (f 3).getLsbD 7
  lqi := (f 3).toNat % 128
  rssiRaw := f 4
  rssiDbm := rssiDbm (f 4).toNat
  fsmState := (f 5).toNat % 32
  worTimer := wordBE16 (f 6) (f 7)
  flagsRaw := f 8
  cs := (f 8).getLsbD 6
  pqt := (f 8).getLsbD 5
  cca := (f 8).getLsbD 4
  sfd := (f 8).getLsbD 3
  gdo2 := (f 8).getLsbD 2
  gdo0 := (f 8).getLsbD 0
  vcoDac := f 9
  txUnderflow := (f 10).getLsbD 7
  txCount := (f 10).toNat % 128
  rxOverflow := (f 11).getLsbD 7
  rxCount := (f 11).toNat % 128

/-- R125: 12 bytes always have a record. -/
theorem statusDecode_eq_some (hl : l.length = 12) : statusDecode l = some (statusRecord fun k => l.getD k 0) := by
  match l, hl with
  | [_, _, _, _, _, _, _, _, _, _, _, _], _ => simp only [statusDecode, bitAt_toNat, bitField_zero, sext8_eq_toInt]; rfl

theorem statusDecode_eq_none (hl : l.length ≠ 12) : statusDecode l = none := by
  unfold statusDecode
  split
  · exact absurd rfl hl
  · rfl

/-- R133: the record determines every byte but the fsm-state byte, of which it has the low 5 bits. -/
theorem statusRecord_eq_iff :
    statusRecord f = statusRecord g ↔ (∀ k, k < 12 → k ≠ 5 → f k = g k) ∧ (f 5).toNat % 32 = (g 5).toNat % 32 := by
  constructor
  · intro h
    obtain ⟨h6, h7⟩ := wordBE16_inj (congrArg StatusRecord.worTimer h)
    refine ⟨fun k hk hne => ?_, congrArg StatusRecord.fsmState h⟩
    match k, hk, hne with
    | 0, _, _ => exact congrArg StatusRecord.partNum h
    | 1, _, _ => exact congrArg StatusRecord.version h
    | 2, _, _ => exact congrArg StatusRecord.freqOffRaw h
    | 3, _, _ => exact byte_eq_of_bit7_of_low7 (congrArg StatusRecord.crcOk h) (congrArg StatusRecord.lqi h)
    | 4, _, _ => exact congrArg StatusRecord.rssiRaw h
    | 6, _, _ => exact h6
    | 7, _, _ => exact h7
    | 8, _, _ => exact congrArg StatusRecord.flagsRaw h
    | 9, _, _ => exact congrArg StatusRecord.vcoDac h
    | 10, _, _ => exact byte_eq_of_bit7_of_low7 (congrArg StatusRecord.txUnderflow h) (congrArg StatusRecord.txCount h)
    | 11, _, _ => exact byte_eq_of_bit7_of_low7 (congrArg StatusRecord.rxOverflow h) (congrArg StatusRecord.rxCount h)
  · rintro ⟨h, hfsm⟩
    simp (disch := omega) only [statusRecord, h, hfsm]

theorem getElem?_eq_some_getD {k : Nat} (hk : k < l.length) : l[k]? = some (l.getD k 0) := by
  simp [hk]

/-- Settles O42: the two records are equal exactly when the bytes agree as far as a record determines them. -/
theorem statusDecodeLosesOnlyThreeBits : Obligations.StatusDecodeLosesOnlyThreeBits := by
  intro l1 l2 hl1 hl2
  rw [statusDecode_eq_some hl1, statusDecode_eq_some hl2, Option.some.injEq, statusRecord_eq_iff]
  refine and_congr (forall₂_congr fun k hk => ?_) ?_
  · rw [getElem?_eq_some_getD (by omega), getElem?_eq_some_getD (by omega), Option.some.injEq]
  · rw [getElem?_eq_some_getD (k := 5) (by omega), getElem?_eq_some_getD (k := 5) (by omega)]
    exact ⟨by rintro hfsm _ _ ⟨⟩ ⟨⟩; exact hfsm, fun hfsm => hfsm _ _ rfl rfl⟩

/-! ## The signal strength -/

theorem rssiDbm_of_le (hr : r ≤ 127) : rssiDbm r = (r : ℚ) / 2 - 74 := if_pos hr

theorem rssiDbm_of_lt (hr : 127 < r) : rssiDbm r = ((r : ℚ) - 256) / 2 - 74 := if_neg (not_le.2 hr)

/-- R128: twice the dBm is an integer. -/
theorem two_mul_rssiDbm (r : Nat) : 2 * rssiDbm r = ((if r ≤ 127 then (r : Int) - 148 else r - 404 : Int) : ℚ) := by
  split
  next hr => rw [rssiDbm_of_le hr]; push_cast; ring
  next hr => rw [rssiDbm_of_lt (not_le.1 hr)]; push_cast; ring

/-- R129: the upper half of the bytes lies below the lower half. -/
theorem rssiDbm_inj {r1 r2 : Nat} (h1 : r1 ≤ 255) (h2 : r2 ≤ 255) (h : rssiDbm r1 = rssiDbm r2) : r1 = r2 := by
  have hdouble := congrArg (2 * ·) h
  simp only [two_mul_rssiDbm, Int.cast_inj] at hdouble
  split_ifs at hdouble <;> omega

theorem rssiDbm_bounds (hr : r ≤ 255) : -138 ≤ rssiDbm r ∧ rssiDbm r ≤ -21 / 2 := by
  have hbyte : (r : ℚ) ≤ 255 := mod_cast hr
  rcases le_or_gt r 127 with hlow | hhigh
  · have hnonneg : (0 : ℚ) ≤ r := Nat.cast_nonneg r
    have hlow' : (r : ℚ) ≤ 127 := mod_cast hlow
    rw [rssiDbm_of_le hlow]
    constructor <;> linarith
  · have hhigh' : (128 : ℚ) ≤ r := mod_cast hhigh
    rw [rssiDbm_of_lt hhigh]
    constructor <;> linarith

/-- Settles O44: the doubled dBm is an integer, of which the comparisons are linear. -/
theorem rssiDbmIsInjectiveOnBytes : Obligations.RssiDbmIsInjectiveOnBytes := by
  refine ⟨fun r hr => ?_, fun r hr _ => ?_, fun _ _ => rssiDbm_inj, fun _ => rssiDbm_bounds⟩
  · rw [two_mul_rssiDbm, if_pos hr]
    push_cast
    rfl
  · rw [two_mul_rssiDbm, if_neg (by omega)]
    push_cast
    rfl

/-! ## The state names -/

/-- R130: 22 is the table's last code. -/
theorem fsmName_of_le (hp : p.Valid) (hcode : code ≤ 22) : p.fsmNames[code]? = some (fsmName p code) := by
  have hlen : code < p.fsmNames.length := by rw [hp.fsmNames_length]; omega
  simp [fsmName, hcode, hlen]

theorem fsmName_of_lt (hcode : 22 < code) : fsmName p code = "undefined" := by
  unfold fsmName
  split
  · exact if_neg (not_le.2 hcode)
  · rfl

/-! ## What the three operations answer -/

theorem exec_statusDecode (hpending : s.pending = none) (hl : l.length = 12) :
    exec (.statusDecode l) s = .next (Claims.answered (.status (statusRecord fun k => l.getD k 0)) s) := by
  have hexec : exec (.statusDecode l) s = unlessRefused [] s (.next (respond (.status (statusRecord fun k => l.getD k 0)) s)) := by
    simp only [exec, execStatusDecode, statusDecode_eq_some hl]
  rw [hexec]
  exact unlessRefused_effect hpending rfl

theorem exec_statusDecode_refused (hpending : s.pending = none) (hl : l.length ≠ 12) :
    exec (.statusDecode l) s = .next (Claims.refusedWith .argRange s) := by
  have hexec : exec (.statusDecode l) s = unlessRefused [(true, .argRange)] s (.next s) := by
    simp only [exec, execStatusDecode, statusDecode_eq_none hl]
  rw [hexec]
  exact unlessRefused_refused hpending rfl

theorem exec_rssiDbm (hpending : s.pending = none) (hr : r ≤ 255) :
    exec (.rssiDbm r) s = .next (Claims.answered (.rational (rssiDbm r)) s) :=
  unlessRefused_effect hpending (by simp [firstReason, byteInRange, hr])

theorem exec_rssiDbm_refused (hpending : s.pending = none) (hr : 255 < r) :
    exec (.rssiDbm r) s = .next (Claims.refusedWith .argRange s) :=
  unlessRefused_refused hpending (by simp [firstReason, byteInRange, hr])

theorem exec_fsmName (hpending : s.pending = none) (hcode : code ≤ 31) :
    exec (.fsmName code) s = .next (Claims.answered (.text (fsmName s.params code)) s) :=
  unlessRefused_effect hpending (by simp [firstReason, fsmCodeInRange, hcode])

theorem exec_fsmName_refused (hpending : s.pending = none) (hcode : 31 < code) :
    exec (.fsmName code) s = .next (Claims.refusedWith .argRange s) :=
  unlessRefused_refused hpending (by simp [firstReason, fsmCodeInRange, hcode])

/-- Settles O41: the answer is `statusRecord`, whose dBm is RSSI_DBM's answer for the same byte. -/
theorem statusDecodeReadsEveryField : Obligations.StatusDecodeReadsEveryField := fun _ hpending =>
  ⟨fun _ _ _ _ b4 _ _ _ _ _ _ _ => ⟨_, exec_rssiDbm hpending (Nat.le_of_lt_succ b4.isLt), exec_statusDecode hpending rfl⟩,
    fun _ => exec_statusDecode_refused hpending⟩

/-- Settles O43: by the range of the raw value. -/
theorem rssiDbmIsTheHalfDbFormula : Obligations.RssiDbmIsTheHalfDbFormula := by
  intro r s hpending
  split
  next hlow => rw [exec_rssiDbm hpending (by omega), rssiDbm_of_le hlow]
  next hlow =>
    split
    next hbyte => rw [exec_rssiDbm hpending hbyte, rssiDbm_of_lt (not_le.1 hlow)]
    next hbyte => exact exec_rssiDbm_refused hpending (not_le.1 hbyte)

/-- Settles O45: by the range of the code, in the table, in its five bits beyond the table, or beyond them. -/
theorem fsmNameReadsTheTable : Obligations.FsmNameReadsTheTable := by
  intro code s hpending hp
  refine ⟨fun hcode => ⟨_, fsmName_of_le hp hcode, exec_fsmName hpending (by omega)⟩, fun hlow hhigh => ?_,
    exec_fsmName_refused hpending⟩
  rw [exec_fsmName hpending hhigh, fsmName_of_lt hlow]

/-! ## The status reply that is too short -/

/-- R140: the payload is read at address 2, whatever of it the reply reached. -/
theorem statusResult_eq_some (w : Int) (len : Nat) (n : Int) (hfits : 14 ≤ s.params.scratchCapacity) :
    statusResult w len n s = some (statusTag w len n (statusRecord fun k => (Memory.readRun s.scratch 2 12).getD k 0)) := by
  have hread : memRead replyPayloadAt statusLen s = some (Memory.readRun s.scratch 2 12) := memRead_of_fits hfits
  simp only [statusResult, hread, statusDecode_eq_some (Memory.readRun_length s.scratch 2 12)]

/-- A poll that returns while a QUERY_STATUS is in flight answers the tagged record. -/
theorem completePoll_queryStatus {w : Int} {len : Nat} (n : Int) (hpending : s.pending = some (.queryStatus w len))
    (hfits : 14 ≤ s.params.scratchCapacity) :
    completePoll n s = .next (respond (statusTag w len n (statusRecord fun k => (Memory.readRun s.scratch 2 12).getD k 0))
      { s with seq := .idle, pending := none }) := by
  simp only [completePoll, hpending, transactionResult, statusResult_eq_some w len n hfits]

/-- A read that delivers bytes ends the poll. -/
theorem attemptStep_of_data (hfits : 14 ≤ s.params.scratchCapacity) (hanswer : nextReadAnswer s = .data bytes) (hbytes : bytes ≠ []) :
    attemptStep s = completePoll ((bytes.take 14).length : Int) (attemptRead s) := by
  have hcount : ReadAnswer.count readMax (nextReadAnswer s) = ((bytes.take 14).length : Int) := by rw [hanswer]; rfl
  have hpos : 0 < (bytes.take 14).length := List.length_pos_iff.2 (by simpa using hbytes)
  rw [attemptStep_eq hfits, hcount, if_pos (mod_cast hpos)]

theorem attemptRead_scratch (hanswer : nextReadAnswer s = .data bytes) :
    (attemptRead s).scratch = Memory.writeRun s.scratch 0 (bytes.take 14) := by
  rw [attemptRead, hanswer]
  rfl

/-- A run written from address 0 on has its byte `k` at address `k`. -/
theorem Memory.getElem?_eq_some_byteAt_writeRun (m : Memory) {k : Nat} (hk : k < bytes.length) :
    bytes[k]? = some (Memory.byteAt (Memory.writeRun m 0 bytes) k) := by
  have hinside := Memory.byteAt_writeRun_of_inside (m := m) (a := 0) k hk
  rw [Nat.zero_add] at hinside
  rw [hinside, List.getElem?_eq_getElem]

/-- Settles O54: 12 bytes reach address 11, so of the payload at `SCRATCH[2 .. 13]` the last two bytes are the buffer's. -/
theorem twelveByteStatusReplyUsesStaleBytes : Obligations.TwelveByteStatusReplyUsesStaleBytes := by
  intro s bytes hp hpending hanswer hlen
  have hfits : 14 ≤ s.params.scratchCapacity := le_trans (by decide) hp.scratchCapacity_min
  have htake : bytes.take 14 = bytes := List.take_of_length_le (by omega)
  have hscratch : (attemptRead s).scratch = Memory.writeRun s.scratch 0 bytes := by rw [attemptRead_scratch hanswer, htake]
  have hfresh : ∀ k, k < 12 → bytes[k]? = some (Memory.byteAt (attemptRead s).scratch k) := by
    intro k hk
    rw [hscratch]
    exact Memory.getElem?_eq_some_byteAt_writeRun s.scratch (hlen ▸ hk)
  have hstale : ∀ k, 12 ≤ k → Memory.byteAt (attemptRead s).scratch k = Memory.byteAt s.scratch k := by
    intro k hk
    rw [hscratch, Memory.byteAt_writeRun_of_outside (by omega)]
  have hstep := attemptStep_of_data hfits hanswer (by rintro rfl; cases hlen)
  rw [htake, hlen, completePoll_queryStatus (s := attemptRead s) _ hpending hfits] at hstep
  refine ⟨_, _, hstep, rfl, hfresh 4 (by decide), hfresh 11 (by decide), ?_⟩
  rw [← hstale 12 le_rfl, ← hstale 13 (by decide)]
  exact ⟨rfl, rfl, rfl, rfl⟩

end Sys2Proof.Machine
end

section
/-! PROOFS. The registers after reset (70_reset_and_hazards.md R167). -/

namespace Sys2Proof.Machine

/-- Nothing is written yet, so a byte of the buffer is its reset draw (20_memory.md R39). -/
theorem byteAt_resetWith (p : Params) (a : Nat) : Memory.byteAt (State.resetWith p).scratch a = Config.scratchDraw a := rfl

/-- Settles O1: by the definition of reset and of the two tables. -/
theorem resetGivesTheStatedValues : Obligations.ResetGivesTheStatedValues :=
  ⟨fun p => ⟨rfl, rfl, rfl, rfl, rfl, rfl, byteAt_resetWith p⟩, rfl, rfl, rfl⟩

end Sys2Proof.Machine
end

section
/-! PROOFS. Which kind of step the block makes (47_transactions.md R143; 70_reset_and_hazards.md section 1). -/

namespace Sys2Proof.Machine

variable {s : State} {a : Arrival} {rest : List Arrival} {i : Instr}

/-- A request that is taken and decodes is run. -/
theorem step_of_decode_eq_ok (hinbox : s.inbox = a :: rest) (htaken : s.seq = .idle ∨ a.early = true)
    (hdecode : decode s.params a.body = .ok i) : step s = exec i (Claims.taken a rest s) := by
  rcases step_cases s with ⟨hempty, -, -⟩ | ⟨hpolling, hlate, -⟩ | ⟨b, rest', hhead, -, hrun⟩
  · cases hempty.symm.trans hinbox
  · have hnotEarly := hlate a rest hinbox
    simp [hpolling, hnotEarly] at htaken
  · cases hhead.symm.trans hinbox
    rcases hrun with ⟨i', hok, hstep⟩ | ⟨err, herror, -⟩
    · cases hok.symm.trans hdecode
      exact hstep
    · cases herror.symm.trans hdecode

/-- The instruction of a table word is that of the request the word stands for. -/
theorem decode_tableWordArrival {nbits w : Nat} (h : decodeTableWord nbits w = some i) (p : Params) :
    decode p (tableWordArrival w).body = .ok i := by
  unfold decodeTableWord at h
  split at h
  · cases h
  · split at h <;> cases h
    next hdecode => exact hdecode

/-- Settles O7: the request at the head of the inbox is run, and the table word's request, which is early, is put there. -/
theorem stepRunsTheDecodedInstruction : Obligations.StepRunsTheDecodedInstruction :=
  ⟨fun _ _ _ _ => step_of_decode_eq_ok, fun s _ w _ h =>
    ⟨tableWordArrival w, decode_tableWordArrival h s.params,
      step_of_decode_eq_ok (rest := s.inbox) rfl (.inr rfl) (decode_tableWordArrival h s.params)⟩⟩

theorem step_eq_attemptStep (hpolling : s.seq = .polling) (hlate : ∀ a rest, s.inbox = a :: rest → a.early = false) :
    step s = attemptStep s := by
  rcases step_cases s with ⟨-, hidle, -⟩ | ⟨-, -, hstep⟩ | ⟨a, rest, hinbox, htaken, -⟩
  · cases hpolling.symm.trans hidle
  · exact hstep
  · have hnotEarly := hlate a rest hinbox
    simp [hpolling, hnotEarly] at htaken

theorem step_eq_wait (hidle : s.seq = .idle) (hempty : s.inbox = []) : step s = .next s := by
  rcases step_cases s with ⟨-, -, hstep⟩ | ⟨hpolling, -, -⟩ | ⟨a, rest, hinbox, -, -⟩
  · exact hstep
  · cases hpolling.symm.trans hidle
  · cases hinbox.symm.trans hempty

/-- Settles O8: of the three kinds of step the other two ask for another `SEQ` or for a request. -/
theorem stepIsAnAttemptOrWaits : Obligations.StepIsAnAttemptOrWaits :=
  ⟨fun _ => step_eq_attemptStep, fun _ => step_eq_wait⟩

end Sys2Proof.Machine
end

section
/-! PROOFS. The refusals (60_exceptions.md R149 to R156; 10_state.md R23): the conditions each instruction checks, in order, and that an instruction
answers a refusal exactly when one of them holds. -/

namespace Sys2Proof.Machine

variable {i : Instr} {s t u : State} {r : RefReason} {v : Result}

/-! ## The first reason that holds -/

/-- A result is logged as a result, so an answer is never taken for a refusal. -/
theorem respond_ne_refuse (hlog : u.hostLog = s.hostLog) : respond v u ≠ refuse r s := by
  intro h
  simpa [hlog] using congrArg State.hostLog h

/-- A refusal logs an answer, so it is never taken for a state with the same log. -/
theorem ne_refuse_of_hostLog_eq (hlog : u.hostLog = s.hostLog) : u ≠ refuse r s := by
  rintro rfl
  simp at hlog

theorem refuse_inj {q : RefReason} (h : refuse r s = refuse q s) : r = q := by
  simpa using congrArg State.hostLog h

/-- In a list in the priority order of R156 the first reason that holds is the one that holds while none before it does. -/
theorem firstReason_eq_some_iff {l : List (Bool × RefReason)} (hsorted : l.Pairwise fun c d => Claims.rank c.2 < Claims.rank d.2) :
    firstReason l = some r ↔ (true, r) ∈ l ∧ ∀ q, Claims.rank q < Claims.rank r → (true, q) ∉ l := by
  induction l with
  | nil => simp [firstReason]
  | cons c l ih =>
    obtain ⟨hhead, htail⟩ := List.pairwise_cons.1 hsorted
    obtain ⟨b, q⟩ := c
    cases b with
    | false => simpa [firstReason] using ih htail
    | true =>
      constructor
      · intro h
        obtain rfl : q = r := by simpa [firstReason] using h
        refine ⟨List.mem_cons_self, fun q' hlt hmem => ?_⟩
        rcases List.mem_cons.1 hmem with heq | hmem
        · cases heq
          exact lt_irrefl _ hlt
        · exact lt_asymm hlt (hhead _ hmem)
      · rintro ⟨hmem, hfirst⟩
        rcases List.mem_cons.1 hmem with heq | hmem
        · cases heq
          rfl
        · exact absurd List.mem_cons_self (hfirst q (hhead _ hmem))

/-! ## The conditions of each instruction -/

/-- The refusal conditions that `exec` checks after `REF_BUSY`, in its order (R154). -/
def instrReasons (i : Instr) (s : State) : List (Bool × RefReason) :=
  match i with
  | .modDec word => [(!modWordInRange word, .argRange)]
  | .parmsSer p | .envInit p => [(!parmsInWidth p, .argRange)]
  | .parmsDes l => [(!parmsBytesInRange l, .argRange)]
  | .statusDecode l => [(!statusBytesInRange l, .argRange)]
  | .rssiDbm n => [(!byteInRange n, .argRange)]
  | .fsmName code => [(!fsmCodeInRange code, .argRange)]
  | .envTxBlock countdown block => [(!byteInRange countdown, .argRange), (blockTooLong block, .blockTooLong)]
  | .drateDev baseRate skew modIndex scheme => drateDevReasons (baseRate * skew) modIndex scheme
  | .encodeConfig cfg => encodeConfigReasons cfg
  | .readWithTimeout budget => [(budget == 0, .attemptsZero)]
  | .sendInit cfg => (overCapacity 20 s, .envOverCapacity) :: encodeConfigReasons cfg
  | .queryStatus => [(overCapacity 2 s, .envOverCapacity)]
  | .sendBlock countdown block budget =>
    [(!byteInRange countdown, .argRange), (blockTooLong block, .blockTooLong),
      (overCapacity (envTxBlock s.params countdown block).length s, .envOverCapacity), (budget == 0, .attemptsZero)]
  | .setXtal hz => [(hz == 0, .xtalZero)]
  | _ => []

theorem beginTransaction_ne_refuse {mk : Int → Nat → Pending} {env : List Byte} {budget : Nat} (hlog : u.hostLog = s.hostLog) :
    beginTransaction mk env budget u ≠ .next (refuse r s) := by
  rw [beginTransaction_eq]
  split
  · exact fun h => ne_refuse_of_hostLog_eq (u := transactionStarted mk env budget u) hlog (Host.Outcome.next.inj h)
  · nofun

/-- An instruction checks its conditions in order, and what it does when none holds is no refusal. -/
theorem exec_eq_unlessRefused (i : Instr) (s : State) :
    ∃ k, exec i s = unlessRefused (instrReasons i s) s k ∧ ∀ r, k ≠ .next (refuse r s) := by
  have hanswer : ∀ (v : Result) (u : State) (r : RefReason), u.hostLog = s.hostLog →
      Host.Outcome.next (φ := Fault) (ρ := Refusal) (respond v u) ≠ .next (refuse r s) :=
    fun v u r hlog h => respond_ne_refuse hlog (Host.Outcome.next.inj h)
  have hsilent : ∀ (u : State) (r : RefReason), u.hostLog = s.hostLog →
      Host.Outcome.next (φ := Fault) (ρ := Refusal) u ≠ .next (refuse r s) :=
    fun u r hlog h => ne_refuse_of_hostLog_eq hlog (Host.Outcome.next.inj h)
  cases i with
  | freqWord | ifWord | modEnc | modDec | chanBw | drateDev | effRate | byteTime | encodeConfig | parmsSer | envInit | envStatusQuery
    | envTxBlock | envParse | rssiDbm | fsmName | setXtal | cmdInit | cmdStatusQuery | cmdTxBlock =>
    exact ⟨_, rfl, fun r => hanswer _ _ r rfl⟩
  | readWithTimeout => exact ⟨_, rfl, fun r => hsilent _ r rfl⟩
  | sendInit | queryStatus | sendBlock => exact ⟨_, rfl, fun r => beginTransaction_ne_refuse rfl⟩
  | parmsDes l =>
    by_cases hl : l.length = 18
    · obtain ⟨p, hp⟩ := exists_parmsDes_eq_some hl
      have hrange : parmsBytesInRange l = true := beq_iff_eq.2 hl
      exact ⟨_, by simp only [exec, execParmsDes, hp, instrReasons, hrange]; rfl, fun r => hanswer _ _ r rfl⟩
    · have hrange : parmsBytesInRange l = false := beq_eq_false_iff_ne.2 hl
      exact ⟨_, by simp only [exec, execParmsDes, parmsDes_eq_none hl, instrReasons, hrange]; rfl, fun r => hsilent _ r rfl⟩
  | statusDecode l =>
    by_cases hl : l.length = 12
    · have hrange : statusBytesInRange l = true := beq_iff_eq.2 hl
      exact ⟨_, by simp only [exec, execStatusDecode, statusDecode_eq_some hl, instrReasons, hrange]; rfl, fun r => hanswer _ _ r rfl⟩
    · have hrange : statusBytesInRange l = false := beq_eq_false_iff_ne.2 hl
      exact ⟨_, by simp only [exec, execStatusDecode, statusDecode_eq_none hl, instrReasons, hrange]; rfl, fun r => hsilent _ r rfl⟩

/-- A request is refused exactly for the first of its conditions that holds, `REF_BUSY` before all of them. -/
theorem exec_eq_refuse_iff :
    exec i s = .next (refuse r s) ↔ firstReason ((s.pending.isSome, .busy) :: instrReasons i s) = some r := by
  obtain ⟨k, hexec, hk⟩ := exec_eq_unlessRefused i s
  rw [hexec, unlessRefused]
  cases firstReason ((s.pending.isSome, .busy) :: instrReasons i s) with
  | none => simpa using hk r
  | some q =>
    constructor
    · intro h
      rw [refuse_inj (Host.Outcome.next.inj h)]
    · intro h
      cases h
      rfl

/-! ## The conditions are those of R154, in the order of R156 -/

theorem instrReasons_sorted (i : Instr) (s : State) :
    ((s.pending.isSome, .busy) :: instrReasons i s).Pairwise fun c d => Claims.rank c.2 < Claims.rank d.2 := by
  cases i <;> simp [instrReasons, encodeConfigReasons, drateDevReasons, Claims.rank]

/-- The capacity check of SEND_INIT and of QUERY_STATUS, which R154 does not list, never holds in a buffer of 20 bytes. -/
theorem mem_instrReasons_iff (hp : s.params.Valid) :
    (true, r) ∈ (s.pending.isSome, .busy) :: instrReasons i s ↔ Claims.refusalHolds i s r := by
  have hfits20 : overCapacity 20 s = false := overCapacity_eq_false.2 hp.scratchCapacity_min
  have hfits2 : overCapacity 2 s = false := overCapacity_eq_false.2 (le_trans (by decide) hp.scratchCapacity_min)
  cases i with
  | freqWord | ifWord | modEnc | chanBw | effRate | byteTime | envStatusQuery | envParse | cmdInit | cmdStatusQuery | cmdTxBlock =>
    cases r <;> simp [instrReasons, Claims.refusalHolds, Option.isSome_iff_ne_none]
  | modDec | parmsSer | parmsDes | envInit | statusDecode | rssiDbm | fsmName =>
    cases r <;> simp [instrReasons, Claims.refusalHolds, Option.isSome_iff_ne_none, modWordInRange, parmsBytesInRange, parmsLen,
      statusBytesInRange, statusLen, byteInRange, fsmCodeInRange]
  | readWithTimeout | setXtal => cases r <;> simp [instrReasons, Claims.refusalHolds, Option.isSome_iff_ne_none]
  | envTxBlock | sendBlock =>
    cases r <;> simp [instrReasons, Claims.refusalHolds, Option.isSome_iff_ne_none, byteInRange, blockTooLong, overCapacity]
  | drateDev | encodeConfig | sendInit =>
    cases r <;> simp [instrReasons, Claims.refusalHolds, Option.isSome_iff_ne_none, encodeConfigReasons, drateDevReasons,
      clampedRate_eq_rateOf, hfits20]
  | queryStatus => cases r <;> simp [instrReasons, Claims.refusalHolds, Option.isSome_iff_ne_none, hfits2]

/-- Settles O15: the list of conditions is in the priority order, and holds at the reasons whose condition of R154 holds. -/
theorem firstReasonInPriorityOrderRefuses : Obligations.FirstReasonInPriorityOrderRefuses := by
  intro i s hp r
  change exec i s = .next (refuse r s) ↔ _
  rw [exec_eq_refuse_iff, firstReason_eq_some_iff (instrReasons_sorted i s)]
  simp only [mem_instrReasons_iff hp]

/-! ## A request while a transaction is in flight -/

theorem exec_busy (h : s.pending.isSome = true) (i : Instr) : exec i s = .next (refuse .busy s) :=
  exec_eq_refuse_iff.2 (by simp [firstReason, h])

/-- An early request is taken whatever the block is doing. -/
theorem step_of_early_busy {a : Arrival} {rest : List Arrival} (hinbox : s.inbox = a :: rest) (hearly : a.early = true)
    (hbusy : s.pending.isSome = true) : step s = .next (refuse .busy (Claims.taken a rest s)) := by
  cases hdecode : decode s.params a.body with
  | ok i => exact (step_of_decode_eq_ok hinbox (.inr hearly) hdecode).trans (exec_busy (s := Claims.taken a rest s) hbusy i)
  | error err =>
    exact (step_of_decode_eq_error hinbox (.inr hearly) hdecode).trans (undecodable_busy (s := Claims.taken a rest s) hbusy)

/-- Settles O13: `REF_BUSY` stands before every condition of the instruction, and before what an undecodable request is refused for. -/
theorem requestInFlightIsRefusedAsBusy : Obligations.RequestInFlightIsRefusedAsBusy :=
  ⟨fun i _ _ hpending => exec_busy (Option.isSome_iff_ne_none.2 hpending) i,
    fun _ _ _ _ _ hinbox hearly _ hpending => step_of_early_busy hinbox hearly (Option.isSome_iff_ne_none.2 hpending)⟩

/-! ## Every request ends in a next state, and a refusal changes the mark alone -/

theorem Effect.exists_next {o : Host.Outcome State Fault Refusal} (h : Effect s o) : ∃ t, o = .next t := by
  cases h <;> exact ⟨_, rfl⟩

/-- Settles O4: a refusal and each effect is a next state. -/
theorem everyRequestEndsInANextState : Obligations.EveryRequestEndsInANextState := by
  intro i s
  rcases exec_cases i s with ⟨r, hrefused⟩ | ⟨-, heffect⟩
  · exact ⟨_, hrefused⟩
  · exact heffect.exists_next

/-- An effect leaves the mark as it was, and what it logs, if anything, is a result. -/
theorem Effect.refused_hostLog {o : Host.Outcome State Fault Refusal} (h : Effect s o) (ht : o = .next t) :
    t.refused = s.refused ∧ (t.hostLog = s.hostLog ∨ ∃ v, t.hostLog = s.hostLog ++ [.answer (.result v)]) := by
  cases h with
  | answer v => cases ht; exact ⟨rfl, .inr ⟨v, rfl⟩⟩
  | xtal => cases ht; exact ⟨rfl, .inr ⟨.ack, rfl⟩⟩
  | poll => cases ht; exact ⟨rfl, .inl rfl⟩
  | transaction => cases ht; exact ⟨rfl, .inl rfl⟩

/-- What a request leads to is a refusal, or a state with the same mark. -/
theorem exec_refused_cases (h : exec i s = .next t) :
    (∃ r, t = refuse r s) ∨ (t.refused = s.refused ∧ ∀ r, t.hostLog ≠ s.hostLog ++ [.answer (.refused r)]) := by
  rcases exec_cases i s with ⟨r, hrefused⟩ | ⟨-, heffect⟩
  · exact .inl ⟨r, Host.Outcome.next.inj (h.symm.trans hrefused)⟩
  · obtain ⟨hmark, hlog | ⟨v, hlog⟩⟩ := heffect.refused_hostLog h
    · exact .inr ⟨hmark, by simp [hlog]⟩
    · exact .inr ⟨hmark, by simp [hlog]⟩

theorem step_refused (h : step s = .next t) (hmark : s.refused = true) : t.refused = true := by
  rcases step_eq_next_cases h with rfl | hattempt | ⟨a, rest, ⟨i, hexec⟩ | ⟨err, herror⟩⟩
  · exact hmark
  · obtain ⟨-, -, -, -, -, hsame, -⟩ := attemptStep_frame hattempt
    exact hsame.trans hmark
  · rcases exec_refused_cases hexec with ⟨r, rfl⟩ | ⟨hsame, -⟩
    · rfl
    · exact hsame.trans hmark
  · rcases undecodable_cases err a.body (Claims.taken a rest s) with ⟨r, hrefused⟩ | ⟨-, v, hanswer⟩
    · cases herror.symm.trans hrefused
      rfl
    · cases herror.symm.trans hanswer
      exact hmark

/-- Settles O14: only `refuse` logs a refusal, and only it sets the mark, which no step writes otherwise. -/
theorem refusalChangesOnlyTheMark : Obligations.RefusalChangesOnlyTheMark := by
  refine ⟨fun i s t r h hlog => ?_, fun i s t h hclear hset => ?_, fun s t => step_refused⟩
  · rcases exec_refused_cases h with ⟨q, rfl⟩ | ⟨-, hnone⟩
    · obtain rfl : q = r := by simpa using hlog
      rfl
    · exact absurd hlog (hnone r)
  · rcases exec_refused_cases h with ⟨r, rfl⟩ | ⟨hsame, -⟩
    · exact ⟨r, rfl⟩
    · simp [hsame, hclear] at hset

end Sys2Proof.Machine
end

section
/-! PROOFS. The request steps of SET_XTAL and of the four operations that start a poll (47_transactions.md R134, R137, R140, R143, R144, R148). -/

namespace Sys2Proof.Machine

variable {s : State} {cfg : RadioLinkConfig} {block : List Byte} {countdown budget : Nat}

/-! ## The operations without an envelope -/

/-- Settles O46: the budget is the one condition. -/
theorem readWithTimeoutStartsAPoll : Obligations.ReadWithTimeoutStartsAPoll := by
  intro k s hpending
  split
  next hzero => exact unlessRefused_refused hpending (by simp [firstReason, hzero])
  next hzero => exact unlessRefused_effect hpending (by simp [firstReason, hzero])

/-- Settles O56: the frequency is the one condition. -/
theorem setXtalChangesOnlyXtal : Obligations.SetXtalChangesOnlyXtal := by
  intro hz s hpending
  split
  next hzero => exact unlessRefused_refused hpending (by simp [firstReason, hzero])
  next hzero => exact unlessRefused_effect hpending (by simp [firstReason, hzero])

/-! ## The start of a transaction -/

/-- While the script lasts its head, bounded by the length offered, is the count. -/
theorem nextWriteCount_of_script {n : Nat} {w : Int} {ws : List Int} (h : s.writeScript = w :: ws) :
    nextWriteCount n s = min w (n : Int) := by
  simp [nextWriteCount, h]

/-- R124: the envelope is a run written from address 0, and the rest of the request step is the link's answer and the poll's start. -/
theorem transactionStarted_begins (mk : Int → Nat → Pending) (env : List Byte) (budget : Nat) (notices : List Notice) (s : State) :
    Claims.TransactionBegins s (transactionStarted mk env budget (emit notices s)) mk env budget notices := by
  refine ⟨Memory.writeRun s.scratch 0 env, nextWriteCount env.length s, nextWriteCount_le _ _, fun _ _ => nextWriteCount_of_script,
    fun k hk => ?_, fun a ha => Memory.byteAt_writeRun_of_outside (by omega), ?_⟩
  · simpa using Memory.byteAt_writeRun_of_inside (m := s.scratch) (a := 0) k hk
  · simp only [transactionStarted, List.isEmpty_iff]
    rfl

theorem beginTransaction_begins (mk : Int → Nat → Pending) {env : List Byte} (budget : Nat) (notices : List Notice)
    (hfits : env.length ≤ s.params.scratchCapacity) :
    ∃ t, beginTransaction mk env budget (emit notices s) = .next t ∧ Claims.TransactionBegins s t mk env budget notices :=
  ⟨_, by rw [beginTransaction_eq, if_pos (by simpa using hfits)], transactionStarted_begins mk env budget notices s⟩

/-! ## SEND_INIT -/

/-- In a valid buffer the conditions of SEND_INIT are ENCODE_CONFIG's. -/
theorem firstReason_sendInit (hp : s.params.Valid) (cfg : RadioLinkConfig) :
    firstReason (instrReasons (.sendInit cfg) s) = firstReason (encodeConfigReasons cfg) := by
  have hfits : overCapacity 20 s = false := overCapacity_eq_false.2 hp.scratchCapacity_min
  simp [instrReasons, firstReason, hfits]

theorem exec_sendInit_refused {r : RefReason} (hpending : s.pending = none) (hp : s.params.Valid)
    (hr : firstReason (encodeConfigReasons cfg) = some r) : exec (.sendInit cfg) s = .next (Claims.refusedWith r s) :=
  unlessRefused_refused hpending ((firstReason_sendInit hp cfg).trans hr)

theorem exec_sendInit (hpending : s.pending = none) (hp : s.params.Valid) (hr : firstReason (encodeConfigReasons cfg) = none) :
    exec (.sendInit cfg) s = beginTransaction .sendInit (envInit s.params (encodeConfig s.params s.xtal cfg)) s.params.initAttempts
      (emit (Claims.noticesOf cfg.scheme (cfg.baseRate * cfg.skew)) s) := by
  rw [← clampNotices_eq_noticesOf]
  exact unlessRefused_effect hpending ((firstReason_sendInit hp cfg).trans hr)

/-- Settles O47: the refusals are ENCODE_CONFIG's, and the envelope is ENV_INIT's answer for the encoding, whose fields are inside their
widths. -/
theorem sendInitWritesTheInitEnvelope : Obligations.SendInitWritesTheInitEnvelope := by
  intro cfg s hpending hp
  refine ⟨fun hrate => ?_, fun hrate hdev => ?_, fun hrate hdev => ?_⟩
  · exact exec_sendInit_refused hpending hp (by simp [encodeConfigReasons, drateDevReasons, firstReason, clampedRate_eq_rateOf, hrate])
  · exact exec_sendInit_refused hpending hp
      (by simp [encodeConfigReasons, drateDevReasons, firstReason, clampedRate_eq_rateOf, hrate, hdev])
  · obtain ⟨t, hstart, hbegins⟩ := beginTransaction_begins .sendInit (env := envInit s.params (encodeConfig s.params s.xtal cfg))
      s.params.initAttempts (Claims.noticesOf cfg.scheme (cfg.baseRate * cfg.skew)) hp.scratchCapacity_min
    exact ⟨_, _, t, exec_encodeConfig hpending hrate hdev, exec_envInit hpending (parmsInWidth_encodeConfig hp s.xtal cfg),
      envInit_length _ _, (exec_sendInit hpending hp (drateDevReasons_eq_none_iff.2 ⟨hrate, hdev⟩)).trans hstart, hbegins⟩

/-! ## QUERY_STATUS and SEND_BLOCK -/

/-- Settles O48: two bytes fit a valid buffer, so with nothing pending no condition holds. -/
theorem queryStatusWritesTheQueryEnvelope : Obligations.QueryStatusWritesTheQueryEnvelope := by
  intro s hpending hp
  have hfits : 2 ≤ s.params.scratchCapacity := le_trans (by decide) hp.scratchCapacity_min
  have hexec : exec .queryStatus s = beginTransaction .queryStatus (envStatusQuery s.params) s.params.statusAttempts s :=
    unlessRefused_effect hpending (by simp [firstReason, overCapacity_eq_false.2 hfits])
  obtain ⟨t, hstart, hbegins⟩ := beginTransaction_begins .queryStatus (env := envStatusQuery s.params) s.params.statusAttempts [] hfits
  rw [emit_nil] at hstart
  exact ⟨t, hexec.trans hstart, hbegins⟩

/-- The conditions of SEND_BLOCK in their order (R144). -/
theorem firstReason_sendBlock (countdown : Nat) (block : List Byte) (budget : Nat) (s : State) :
    firstReason (instrReasons (.sendBlock countdown block budget) s) =
      if 255 < countdown then some .argRange
      else if 253 < block.length then some .blockTooLong
      else if s.params.scratchCapacity < 4 + block.length then some .envOverCapacity
      else if budget = 0 then some .attemptsZero
      else none := by
  simp [instrReasons, firstReason, byteInRange, blockTooLong, overCapacity]

theorem exec_sendBlock_refused {r : RefReason} (hpending : s.pending = none)
    (hr : firstReason (instrReasons (.sendBlock countdown block budget) s) = some r) :
    exec (.sendBlock countdown block budget) s = .next (Claims.refusedWith r s) := unlessRefused_refused hpending hr

theorem exec_sendBlock (hpending : s.pending = none)
    (hr : firstReason (instrReasons (.sendBlock countdown block budget) s) = none) :
    exec (.sendBlock countdown block budget) s = beginTransaction .sendBlock (envTxBlock s.params countdown block) budget s :=
  unlessRefused_effect hpending hr

/-- Settles O49: by the four conditions in their order; when none holds the transaction begins. -/
theorem sendBlockWritesTheBlockEnvelope : Obligations.SendBlockWritesTheBlockEnvelope := by
  intro c block k s hpending
  refine ⟨fun hc => ?_, fun hc hblock => ?_, fun hc hblock hover => ?_, fun hc hblock hfits hk => ?_, fun hc hblock hfits hk => ?_⟩
  · exact exec_sendBlock_refused hpending (by rw [firstReason_sendBlock, if_pos hc])
  · exact exec_sendBlock_refused hpending (by rw [firstReason_sendBlock, if_neg hc.not_gt, if_pos hblock])
  · exact exec_sendBlock_refused hpending
      (by rw [firstReason_sendBlock, if_neg hc.not_gt, if_neg hblock.not_gt, if_pos hover])
  · exact exec_sendBlock_refused hpending
      (by rw [firstReason_sendBlock, if_neg hc.not_gt, if_neg hblock.not_gt, if_neg hfits.not_gt, if_pos hk])
  · obtain ⟨t, hstart, hbegins⟩ := beginTransaction_begins .sendBlock (env := envTxBlock s.params c block) k []
      ((envTxBlock_length s.params c block).trans_le hfits)
    rw [emit_nil] at hstart
    refine ⟨t, (exec_sendBlock hpending ?_).trans hstart, hbegins⟩
    rw [firstReason_sendBlock, if_neg hc.not_gt, if_neg hblock.not_gt, if_neg hfits.not_gt, if_neg hk]

end Sys2Proof.Machine
end

section
/-! PROOFS. What an attempt does with each answer of the link, and what the transaction in flight returns (47_transactions.md R134, R137, R138, R140,
R143, R144, R146). -/

namespace Sys2Proof.Machine

variable {s t : State} {p : Pending} {ans : ReadAnswer} {bytes : List Byte} {rest : List ReadAnswer} {draws : Nat}

/-! ## The read -/

/-- A read takes the answer from the script, or else from the free draws. -/
theorem nextAnswer_used (h : Claims.NextAnswer s ans rest draws) :
    s.readScript.tail = rest ∧ (if s.readScript.isEmpty then s.draws + 1 else s.draws) = draws := by
  rcases h with ⟨-, ⟨hscript, rfl⟩ | ⟨hscript, -, rfl, rfl⟩⟩ <;> simp [hscript]

/-- The state after the read of an attempt, by what the link answers. -/
theorem attemptRead_eq (h : Claims.NextAnswer s ans rest draws) :
    attemptRead s =
      { s with
        scratch := Memory.writeRun s.scratch 0 (ReadAnswer.delivered 14 ans)
        lastCount := ReadAnswer.count 14 ans
        readScript := ReadAnswer.leftover 14 ans ++ rest
        draws := draws
        linkLog := s.linkLog ++ [.read 14 (ReadAnswer.count 14 ans) (ReadAnswer.delivered 14 ans)] } := by
  obtain ⟨htail, hdraws⟩ := nextAnswer_used h
  obtain ⟨rfl, -⟩ := h
  rw [← htail, ← hdraws]
  rfl

/-- An answer without a positive count has no bytes at hand. -/
theorem ReadAnswer.eq_nil_of_count_nonpos (h : ReadAnswer.count 14 (.data bytes) ≤ 0) : bytes = [] := by
  simpa [ReadAnswer.count] using h

theorem ReadAnswer.leftover_of_count_nonpos (h : ReadAnswer.count 14 ans ≤ 0) : ReadAnswer.leftover 14 ans = [] := by
  cases ans with
  | noData k => rfl
  | data bytes =>
    cases ReadAnswer.eq_nil_of_count_nonpos h
    rfl

/-- The bytes beyond the first 14 stay in the stream (20_memory.md R49, R58). -/
theorem ReadAnswer.leftover_data_append (bytes : List Byte) (rest : List ReadAnswer) :
    ReadAnswer.leftover 14 (.data bytes) ++ rest = if bytes.length ≤ 14 then rest else .data (bytes.drop 14) :: rest := by
  simp only [ReadAnswer.leftover, List.drop_eq_nil_iff]
  split <;> rfl

/-! ## The transaction's result -/

theorem transactionResult_resultOf (p : Pending) (n : Int) (hfits : 14 ≤ s.params.scratchCapacity) :
    ∃ v, transactionResult p n s = some v ∧ Claims.ResultOf p n s.scratch v := by
  cases p with
  | readWithTimeout | sendInit | sendBlock => exact ⟨_, rfl, rfl⟩
  | queryStatus w len =>
    refine ⟨_, statusResult_eq_some w len n hfits, ?_⟩
    by_cases hw : w = (len : Int)
    · by_cases hn : n < 12
      · simp [Claims.ResultOf, statusTag, statusLen, hw, hn]
      · simp only [Claims.ResultOf, statusTag, statusLen, hw, Nat.cast_ofNat, hn, ne_eq, not_true_eq_false, if_false]
        exact ⟨_, statusDecode_eq_some rfl, rfl⟩
    · simp [Claims.ResultOf, statusTag, hw]

/-- A poll that returns while a transaction is in flight answers its result. -/
theorem completePoll_of_pending (n : Int) (hpending : s.pending = some p) (hfits : 14 ≤ s.params.scratchCapacity) :
    ∃ v, Claims.ResultOf p n s.scratch v ∧ completePoll n s = .next (respond v { s with seq := .idle, pending := none }) := by
  obtain ⟨v, hresult, hof⟩ := transactionResult_resultOf p n hfits
  exact ⟨v, hof, by simp only [completePoll, hpending, hresult]⟩

theorem readMax_le_of_valid (hp : s.params.Valid) : 14 ≤ s.params.scratchCapacity := le_trans (by decide) hp.scratchCapacity_min

/-! ## The attempt -/

/-- Settles O50: the read writes its run from address 0, and the poll returns its count. -/
theorem positiveReadEndsTheTransaction : Obligations.PositiveReadEndsTheTransaction := by
  intro s p bytes rest draws hp hpending hnext hbytes
  have hanswer : nextReadAnswer s = .data bytes := hnext.1
  have hread := attemptRead_eq hnext
  have hfits := readMax_le_of_valid hp
  obtain ⟨v, hresult, hpoll⟩ := completePoll_of_pending (s := attemptRead s) ((bytes.take 14).length : Int) hpending hfits
  refine ⟨(attemptRead s).scratch, v, by rw [hanswer]; rfl, by rw [hanswer]; rfl, fun k hk => ?_, fun a ha => ?_, hresult, ?_⟩
  · have hinside := Memory.byteAt_writeRun_of_inside (m := s.scratch) (a := 0) k hk
    rw [attemptRead_scratch hanswer, ← hinside, Nat.zero_add]
  · rw [attemptRead_scratch hanswer, Memory.byteAt_writeRun_of_outside (by omega)]
  · rw [attemptStep_of_data hfits hanswer hbytes, hpoll, hread, ReadAnswer.leftover_data_append]
    rfl

/-- The state after a read of a count `n` of 0 or less, before the attempt is counted as failed. -/
def afterEmptyRead (n : Int) (rest : List ReadAnswer) (draws : Nat) (s : State) : State :=
  { s with lastCount := n, readScript := rest, draws := draws, linkLog := s.linkLog ++ [.read 14 n []] }

/-- A read without a positive count delivers nothing and leaves nothing of its answer, and the attempt fails. -/
theorem attemptStep_of_count_nonpos (hfits : 14 ≤ s.params.scratchCapacity) (hnext : Claims.NextAnswer s ans rest draws)
    (hcount : ReadAnswer.count 14 ans ≤ 0) :
    attemptStep s = failedAttempt (ReadAnswer.count 14 ans) (afterEmptyRead (ReadAnswer.count 14 ans) rest draws s) := by
  have hanswer : nextReadAnswer s = ans := hnext.1
  have hnot : ¬0 < ReadAnswer.count readMax (nextReadAnswer s) := hanswer ▸ hcount.not_gt
  rw [attemptStep_eq hfits, if_neg hnot, attemptRead_eq hnext, hanswer, ReadAnswer.delivered_of_not_pos hcount.not_gt,
    ReadAnswer.leftover_of_count_nonpos hcount]
  rfl

theorem failedAttempt_of_attempts_left (n : Int) (h : 2 ≤ s.attemptsLeft) :
    failedAttempt n s = .next { s with sleeps := s.sleeps + 1, attemptsLeft := s.attemptsLeft - 1 } :=
  if_neg (Nat.sub_ne_zero_of_lt h)

theorem failedAttempt_of_last (n : Int) (h : s.attemptsLeft = 1) :
    failedAttempt n s = completePoll n { s with sleeps := s.sleeps + 1, attemptsLeft := 0 } := by
  simp [failedAttempt, sleep, h]

/-- Settles O51: the attempt fails; with attempts left it is counted, and the last one ends the poll with the read's count. -/
theorem emptyReadUsesUpAnAttempt : Obligations.EmptyReadUsesUpAnAttempt := by
  rintro s p ans n rest draws hp hpending hnext rfl hnonpos
  have hfits := readMax_le_of_valid hp
  have hstep := attemptStep_of_count_nonpos hfits hnext hnonpos
  refine ⟨?_, ?_, fun hleft => ?_, fun hlast => ?_⟩
  · rintro k rfl
    rfl
  · rintro bytes rfl
    cases ReadAnswer.eq_nil_of_count_nonpos hnonpos
    exact ⟨rfl, rfl⟩
  · exact hstep.trans (failedAttempt_of_attempts_left (s := afterEmptyRead _ rest draws s) _ hleft)
  · rw [hstep, failedAttempt_of_last (s := afterEmptyRead _ rest draws s) _ hlast]
    exact completePoll_of_pending (s := { afterEmptyRead _ rest draws s with sleeps := s.sleeps + 1, attemptsLeft := 0 }) _ hpending hfits

end Sys2Proof.Machine
end

section
/-! PROOFS. A step never faults, and a poll ends (60_exceptions.md R151; 47_transactions.md R134 to R136, R143). -/

namespace Sys2Proof.Machine

variable {s t : State} {p : Pending} {rest : List ReadAnswer}

/-! ## How an attempt ends -/

theorem completePoll_ends (n : Int) (hfits : 14 ≤ s.params.scratchCapacity) :
    ∃ t : State, completePoll n s = .next t ∧ t.seq = .idle ∧ t.pending = none := by
  rcases completePoll_cases n hfits with ⟨hnone, hnext⟩ | ⟨p, v, -, -, hnext⟩
  · exact ⟨_, hnext, rfl, hnone⟩
  · exact ⟨_, hnext, rfl, rfl⟩

/-- `t`, which an attempt of `s` led to, has ended the poll or goes on with one attempt less. -/
def EndsOrGoesOn (s t : State) : Prop :=
  (t.seq = .idle ∧ t.pending = none) ∨ (t.seq = s.seq ∧ t.attemptsLeft = s.attemptsLeft - 1)

theorem failedAttempt_endsOrGoesOn (n : Int) (hfits : 14 ≤ s.params.scratchCapacity) :
    ∃ t, failedAttempt n s = .next t ∧ EndsOrGoesOn s t := by
  unfold failedAttempt
  dsimp only
  split
  next =>
    obtain ⟨t, hnext, hends⟩ := completePoll_ends n (s := { sleep s with attemptsLeft := s.attemptsLeft - 1 }) hfits
    exact ⟨t, hnext, .inl hends⟩
  next => exact ⟨_, rfl, .inr ⟨rfl, rfl⟩⟩

theorem attemptStep_endsOrGoesOn (hfits : 14 ≤ s.params.scratchCapacity) : ∃ t, attemptStep s = .next t ∧ EndsOrGoesOn s t := by
  rw [attemptStep_eq hfits]
  split
  next =>
    obtain ⟨t, hnext, hends⟩ := completePoll_ends _ (s := attemptRead s) hfits
    exact ⟨t, hnext, .inl hends⟩
  next => exact failedAttempt_endsOrGoesOn _ (s := attemptRead s) hfits

/-- Settles O5: waiting, a request and a form that stands for none each give a next state, and so does an attempt in a valid buffer. -/
theorem noStepFaults : Obligations.NoStepFaults := by
  intro s hs
  rcases step_cases s with ⟨-, -, hwait⟩ | ⟨-, -, hattempt⟩ | ⟨a, rest, -, -, ⟨i, -, hexec⟩ | ⟨err, -, herror⟩⟩
  · exact ⟨s, hwait⟩
  · obtain ⟨t, hnext, -⟩ := attemptStep_endsOrGoesOn hs.readMax_le_capacity
    exact ⟨t, hattempt.trans hnext⟩
  · obtain ⟨t, hnext⟩ := everyRequestEndsInANextState i (Claims.taken a rest s)
    exact ⟨t, hexec.trans hnext⟩
  · rcases undecodable_cases err a.body (Claims.taken a rest s) with ⟨r, hrefused⟩ | ⟨-, v, hanswer⟩
    · exact ⟨_, herror.trans hrefused⟩
    · exact ⟨_, herror.trans hanswer⟩

/-! ## Every poll ends -/

/-- The attempts left, and the early requests that will be refused before the next of them. -/
def State.pollBound (s : State) : Nat := s.attemptsLeft + (s.inbox.takeWhile Arrival.early).length

/-- A step of a poll either ends it or takes one from its bound. -/
theorem step_of_polling (hs : s.Inv) (hpolling : s.seq = .polling) :
    ∃ t, step s = .next t ∧ ((t.seq = .idle ∧ t.pending = none) ∨ (t.seq = .polling ∧ t.pollBound + 1 = s.pollBound)) := by
  by_cases hlate : ∀ a rest, s.inbox = a :: rest → a.early = false
  · obtain ⟨t, hnext, hends | ⟨hseq, hleft⟩⟩ := attemptStep_endsOrGoesOn hs.readMax_le_capacity
    · exact ⟨t, (step_eq_attemptStep hpolling hlate).trans hnext, .inl hends⟩
    · obtain ⟨-, -, -, -, -, -, -, hinbox, -⟩ := attemptStep_frame hnext
      have hpos := hs.attempts_left hpolling
      refine ⟨t, (step_eq_attemptStep hpolling hlate).trans hnext, .inr ⟨hseq.trans hpolling, ?_⟩⟩
      rw [State.pollBound, State.pollBound, hinbox, hleft]
      omega
  · push Not at hlate
    obtain ⟨a, rest, hinbox, hearly⟩ := hlate
    have hearly : a.early = true := by simpa using hearly
    refine ⟨_, step_of_early_busy hinbox hearly (hs.polling_iff_pending.1 hpolling), .inr ⟨hpolling, ?_⟩⟩
    simp only [State.pollBound, hinbox, List.takeWhile_cons_of_pos hearly, List.length_cons]
    rfl

theorem poll_ends_within (n : Nat) (hs : s.Inv) (hpolling : s.seq = .polling) (hn : s.pollBound = n) :
    ∃ k, k ≤ n ∧ ∃ t : State, Host.Core.run Sys2Proof.core k s = .next t ∧ t.seq = .idle ∧ t.pending = none := by
  induction n generalizing s with
  | zero =>
    have hpos := hs.attempts_left hpolling
    rw [State.pollBound] at hn
    omega
  | succ n ih =>
    obtain ⟨t, hstep, hends | ⟨hgoesOn, hbound⟩⟩ := step_of_polling hs hpolling
    · exact ⟨1, by omega, t, run_succ_of_step 0 hstep, hends⟩
    · obtain ⟨k, hk, u, hrun, hends⟩ := ih (stepKeepsTheInvariant s t hs hstep) hgoesOn (by omega)
      exact ⟨k + 1, by omega, u, (run_succ_of_step k hstep).trans hrun, hends⟩

/-- Settles O6: by induction on the bound, which each step of the poll that does not end it decreases. -/
theorem everyPollEnds : Obligations.EveryPollEnds := fun _ hs hpolling => poll_ends_within _ hs hpolling rfl

/-! ## Exactly as many reads as needed -/

/-- A poll of `p` in a valid block that no further request comes to. -/
structure Polls (s : State) (p : Pending) : Prop where
  params_valid : s.params.Valid
  polling : s.seq = .polling
  pending : s.pending = some p
  inbox_empty : s.inbox = []

theorem Polls.step_eq (h : Polls s p) : step s = attemptStep s :=
  step_eq_attemptStep h.polling (by simp [h.inbox_empty])

/-- The state after empty reads of the counts `-n` for `n` in `ns`, the last count being `last` and the answers to come `rest`. -/
def afterEmptyReads (ns : List Nat) (last : Int) (rest : List ReadAnswer) (s : State) : State :=
  { s with
    lastCount := last
    readScript := rest
    linkLog := s.linkLog ++ ns.map fun n => .read 14 (-(n : Int)) []
    sleeps := s.sleeps + ns.length
    attemptsLeft := s.attemptsLeft - ns.length }

theorem Polls.afterEmptyReads (h : Polls s p) (ns : List Nat) (last : Int) (rest : List ReadAnswer) :
    Polls (afterEmptyReads ns last rest s) p := { h with }

theorem nextAnswer_of_script {ans : ReadAnswer} (h : s.readScript = ans :: rest) : Claims.NextAnswer s ans rest s.draws :=
  ⟨nextReadAnswer_of_script h, .inl ⟨h, rfl⟩⟩

/-- Empty reads, fewer than the attempts left, each take an attempt, and the poll goes on. -/
theorem run_empty_reads {ns : List Nat} (h : Polls s p) (hscript : s.readScript = ns.map .noData ++ rest)
    (hleft : ns.length < s.attemptsLeft) :
    ∃ last, Host.Core.run Sys2Proof.core ns.length s = .next (afterEmptyReads ns last rest s) := by
  induction ns generalizing s with
  | nil =>
    have hscript : s.readScript = rest := hscript
    exact ⟨s.lastCount, by rw [← hscript]; simp [afterEmptyReads, run_zero]⟩
  | cons n ns ih =>
    rw [List.length_cons] at hleft
    have hscript : s.readScript = .noData n :: (ns.map .noData ++ rest) := hscript
    obtain ⟨-, -, hgoesOn, -⟩ := emptyReadUsesUpAnAttempt _ _ _ _ _ _ h.params_valid h.pending (nextAnswer_of_script hscript) rfl
      (by simp [ReadAnswer.count])
    have hstep : step s = .next (afterEmptyReads [n] (-(n : Int)) (ns.map .noData ++ rest) s) := h.step_eq.trans (hgoesOn (by omega))
    obtain ⟨last, hrun⟩ := ih (h.afterEmptyReads [n] (-(n : Int)) (ns.map .noData ++ rest)) rfl (Nat.lt_sub_of_add_lt hleft)
    refine ⟨last, (run_succ_of_step ns.length hstep).trans (hrun.trans ?_)⟩
    simp [afterEmptyReads, Nat.sub_sub, Nat.add_assoc, Nat.add_comm 1]

/-- The attempt after the empty reads is the next step. -/
theorem run_attempt_after_empty_reads {ns : List Nat} (h : Polls s p) (hscript : s.readScript = ns.map .noData ++ rest)
    (hleft : ns.length < s.attemptsLeft) :
    ∃ last, ∀ u, attemptStep (afterEmptyReads ns last rest s) = .next u →
      Host.Core.run Sys2Proof.core (ns.length + 1) s = .next u := by
  obtain ⟨last, hrun⟩ := run_empty_reads h hscript hleft
  exact ⟨last, fun u hu =>
    (run_add 1 hrun).trans (run_succ_of_step 0 ((h.afterEmptyReads ns last rest).step_eq.trans hu))⟩

/-- Before each empty read, and after the last, the block is POLLING. -/
theorem polling_during_empty_reads {ns : List Nat} (h : Polls s p) (hscript : s.readScript = ns.map .noData ++ rest)
    (hleft : ns.length < s.attemptsLeft) {j : Nat} (hj : j ≤ ns.length) :
    ∃ v : State, Host.Core.run Sys2Proof.core j s = .next v ∧ v.seq = .polling := by
  have htake : (ns.take j).length = j := List.length_take_of_le hj
  have hsplit : s.readScript = (ns.take j).map .noData ++ ((ns.drop j).map .noData ++ rest) := by
    rw [← List.append_assoc, ← List.map_append, List.take_append_drop, hscript]
  obtain ⟨last, hrun⟩ := run_empty_reads h hsplit (by omega)
  rw [htake] at hrun
  exact ⟨_, hrun, h.polling⟩

theorem beginPoll_polls (hp : s.params.Valid) (hinbox : s.inbox = []) (budget : Nat) : Polls (beginPoll p budget s) p :=
  ⟨hp, rfl, rfl, hinbox⟩

theorem exec_readWithTimeout {budget : Nat} (hpending : s.pending = none) (hbudget : budget ≠ 0) :
    exec (.readWithTimeout budget) s = .next (beginPoll .readWithTimeout budget s) :=
  (readWithTimeoutStartsAPoll budget s hpending).trans (if_neg hbudget)

/-- Settles O55: the empty reads before the last attempt leave the poll going; then the last attempt fails, or a read delivers bytes. -/
theorem pollMakesExactlyItsReads : Obligations.PollMakesExactlyItsReads := by
  intro s k ns rest hp hidle hpending hinbox
  constructor
  · rintro rfl last hlast hscript
    obtain ⟨init, rfl⟩ := List.getLast?_eq_some_iff.1 hlast
    have hlen : (init ++ [last]).length = init.length + 1 := List.length_append
    rw [hlen]
    have hpolls := beginPoll_polls (p := .readWithTimeout) hp hinbox (init.length + 1)
    have hscript : (beginPoll .readWithTimeout (init.length + 1) s).readScript = init.map .noData ++ .noData last :: rest := by
      simpa using hscript
    obtain ⟨c, hrun⟩ := run_attempt_after_empty_reads hpolls hscript (Nat.lt_succ_self _)
    have hw := hpolls.afterEmptyReads init c (.noData last :: rest)
    obtain ⟨-, -, -, hends⟩ := emptyReadUsesUpAnAttempt _ _ (.noData last) _ rest _ hw.params_valid hw.pending
      (nextAnswer_of_script rfl) rfl (by simp [ReadAnswer.count])
    obtain ⟨v, rfl, hstep⟩ := hends (Nat.add_sub_cancel_left _ _)
    refine ⟨_, _, exec_readWithTimeout hpending (Nat.succ_ne_zero _),
      fun j hj => polling_during_empty_reads hpolls hscript (Nat.lt_succ_self _) (Nat.le_of_lt_succ hj), hrun _ hstep,
      rfl, rfl, rfl, ?_, rfl, rfl⟩
    simp [afterEmptyReads, ReadAnswer.count]
  · intro hlt bytes hbytes hlen hscript
    have htake : bytes.take 14 = bytes := List.take_of_length_le hlen
    have hpolls := beginPoll_polls (p := .readWithTimeout) hp hinbox k
    obtain ⟨c, hrun⟩ := run_attempt_after_empty_reads hpolls hscript hlt
    have hw := hpolls.afterEmptyReads ns c (.data bytes :: rest)
    obtain ⟨mem, v, -, -, -, -, rfl, hstep⟩ := positiveReadEndsTheTransaction _ _ bytes rest _ hw.params_valid hw.pending
      (nextAnswer_of_script rfl) hbytes
    rw [htake] at hstep
    exact ⟨_, _, exec_readWithTimeout hpending (Nat.ne_of_gt (Nat.zero_lt_of_lt hlt)),
      fun j hj => polling_during_empty_reads hpolls hscript hlt hj, hrun _ hstep, rfl, rfl, rfl, rfl, rfl⟩

end Sys2Proof.Machine
end
